-- ==== Sys2Proof/Word.lean ====
section
/-! DEFINITION. The word types of the Quiet-NaN Codec, one for each width the spec gives a value
(spec/00_scope.md R7, R8, R9). Bits are numbered from 0 at the least significant end (R9), as `BitVec` numbers them. -/

namespace Sys2Proof

/-- A 64-bit port word: an identifier operand, an encoded value, or a result (R7 `VALUE_BITS`, R8). -/
abbrev Word64 := BitVec 64

/-- One of the two 32-bit halves of a 64-bit value (R9: `W` and `L`). -/
abbrev Word32 := BitVec 32

/-- The 20-bit high part `H` of an identifier (spec/40_encode.md R82). -/
abbrev HighPart := BitVec 20

/-- A 52-bit identifier (R7 `ID_BITS`). -/
abbrev Ident := BitVec 52

/-- A command word `cw[65:0] = op : nai : opnd` (spec/30_encoding.md R61). -/
abbrev CommandWord := BitVec 66

/-- The 2-bit code held by `STATUS` (spec/10_state.md R26). -/
abbrev Code := BitVec 2

end Sys2Proof
end

