-- ==== Sys2Proof/Syntax.lean ====
section
/-! DEFINITION. The commands of the Quiet-NaN Codec: the three rows of spec/opcode_table.json. -/

namespace Sys2Proof

/-- A command (spec/30_encoding.md R63, R71). `ENCODE.NAI` carries no operand, since R71 drops it
("opnd dropped") and R86 has "all 2^64 values behave alike"; `DECODE` carries no `nai` bit ("nai dropped"). -/
inductive Instr where
  /-- `ENCODE`: `op = 0`, `nai = 0`, the operand an integer in two's complement (R62). -/
  | encode (opnd : Word64)
  /-- `ENCODE.NAI`: `op = 0`, `nai = 1`, the host's datum is not an integer-valued number (R61). -/
  | encodeNai
  /-- `DECODE`: `op = 1`, the operand a binary64 bit pattern (R62). -/
  | decode (opnd : Word64)
  deriving DecidableEq, Repr

end Sys2Proof
end

