-- ==== Sys2Proof/WellFormed.lean ====
section
/-! DEFINITION. Well-formedness: of commands, of which the spec refuses none, and of command words, of which R71
calls some canonical. (The check of an assembler line, R68, stands beside its type in Machine/Assembler.lean.) -/

namespace Sys2Proof

/-- Every command is well formed: spec/30_encoding.md R66, "No command word is illegal, reserved or a hint", and an
operand is used at its full 64-bit width (R62), so its type is the whole check. -/
def Instr.wellFormed : Instr → Bool
  | .encode _ => true
  | .encodeNai => true
  | .decode _ => true

/-- A command word in the canonical form of spec/30_encoding.md R71: "`nai == 0` for `DECODE`, `opnd == 0` for
`ENCODE.NAI`". -/
def canonicalWord (cw : CommandWord) : Bool :=
  if cw.getLsbD 65 then !cw.getLsbD 64
  else if cw.getLsbD 64 then cw.extractLsb' 0 64 == 0#64
  else true

end Sys2Proof
end

