-- ==== Sys2Proof/Decode.lean ====
section
/-! DEFINITION. The decoder, total on all 2^66 command words (spec/30_encoding.md R63, R66, R71), the encoder, and
the opcode map as a list of rows. -/

namespace Sys2Proof

/-- Why a number of any size is no command word. No rule of the spec rejects a command word (R66): the one reason is
that the number has a bit the 66-bit word of R61 does not have. Safe: nothing runs. -/
inductive DecodeReject where
  /-- Raised by `decodeBits` on a number of 2^66 or more. -/
  | bitsAboveTheCommandWord
  deriving DecidableEq, Repr

/-- The field `op`, bit 65 of the command word (R61): true is decode. -/
def opField (cw : CommandWord) : Bool := cw.getLsbD 65

/-- The field `nai`, bit 64 of the command word (R61). -/
def naiField (cw : CommandWord) : Bool := cw.getLsbD 64

/-- The field `opnd`, bits 63..0 of the command word (R61). -/
def opndField (cw : CommandWord) : Word64 := cw.extractLsb' 0 64

/-- `decode_cw` of R71: `nai` is dropped when `op` is 1, `opnd` is dropped for `ENCODE.NAI`. -/
def decodeWord (cw : CommandWord) : Instr :=
  if opField cw then .decode (opndField cw)
  else if naiField cw then .encodeNai
  else .encode (opndField cw)

/-- The decoder on a number of any size, rejecting by name what is wider than the one word of R61. -/
def decodeBits (w : Nat) : Except DecodeReject Instr :=
  if w < 2 ^ 66 then .ok (decodeWord (BitVec.ofNat 66 w)) else .error .bitsAboveTheCommandWord

/-- `encode_cw` of R71. -/
def encodeWord : Instr → CommandWord
  | .encode opnd => 0b00#2 ++ opnd
  | .encodeNai => 0b01#2 ++ 0#64
  | .decode opnd => 0b10#2 ++ opnd

/-- The command read from the low `nbits` bits of `w`, bit 0 the least significant bit of the one 66-bit word.
The hardware stores no command word (R61), so no byte order enters (notes/assumptions/6.md). -/
def decodeTableWord (nbits w : Nat) : Option Instr :=
  match decodeBits (w % 2 ^ nbits) with
  | .ok i => some i
  | .error .bitsAboveTheCommandWord => none

/-- A row of the opcode map of R63: the mnemonic, the match and the mask on the command word. -/
structure OpcodeRow where
  mnemonic : String
  pattern : CommandWord
  mask : CommandWord
  deriving DecidableEq, Repr

/-- A row covers the words that agree with its match where its mask is 1 (R63). -/
def OpcodeRow.covers (r : OpcodeRow) (cw : CommandWord) : Bool := cw &&& r.mask == r.pattern

/-- The opcode map of R63, in its order. -/
def opcodeMap : List OpcodeRow :=
  [ ⟨"ENCODE", 0x00000000000000000#66, 0x30000000000000000#66⟩,
    ⟨"ENCODE.NAI", 0x10000000000000000#66, 0x30000000000000000#66⟩,
    ⟨"DECODE", 0x20000000000000000#66, 0x20000000000000000#66⟩ ]

/-- A command's mnemonic in the opcode map (R63). -/
def Instr.mnemonic : Instr → String
  | .encode _ => "ENCODE"
  | .encodeNai => "ENCODE.NAI"
  | .decode _ => "DECODE"

end Sys2Proof
end

