-- ==== Sys2Proof/Machine/Constants.lean ====
section
/-! DEFINITION. The constants of the bit layout that spec/00_scope.md R7 fixes. -/

namespace Sys2Proof.Machine

/-- `ID_MAX`, 2^52 - 1 = 4,503,599,627,370,495 (R7). -/
def idMax : Int := 4503599627370495

/-- `MASK_EXPQ`: exponent all ones and the quiet bit, on the high 32-bit word (R7). -/
def maskExpQ : Word32 := 0x7FF80000#32

/-- `MASK_H19`: identifier bits 50..32, on the high 32-bit word (R7). -/
def maskH19 : Word32 := 0x0007FFFF#32

/-- `MASK_B19`: the position of identifier bit 51 inside H (R7). -/
def maskB19 : Word32 := 0x00080000#32

/-- `SIGN_SHIFT`: the distance from word bit 31 to word bit 19 (R7). -/
def signShift : Nat := 12

/-- The exponent field of every NaN and infinity, all ones (R7 `EXP_BITS`, spec/42_laws.md R126). -/
def expAllOnes : BitVec 11 := 0x7FF#11

end Sys2Proof.Machine
end

