-- ==== Sys2Proof/Machine/Operands.lean ====
section
/-! DEFINITION. Operand forms and the bit moves of both commands: the identifier (spec/40_encode.md R81, R82), the
assembly of an encoded value (R83, R84) and the reconstruction of an identifier (spec/41_decode.md R102, R104). -/

namespace Sys2Proof.Machine

/-- The identifier an `ENCODE` operand denotes, `signed(opnd)` (spec/30_encoding.md R62). -/
def identifierOf (opnd : Word64) : Int := opnd.toInt

/-- The second input constraint of encode: "Fails with an `OutOfRange` condition if `id < 0` or `id > 2^52 - 1`"
(spec/40_encode.md R81). -/
def identifierInRange (opnd : Word64) : Bool := decide (0 ≤ identifierOf opnd ∧ identifierOf opnd ≤ idMax)

/-- `H`, identifier bits 51..32 (R82). -/
def highPart (opnd : Word64) : HighPart := opnd.extractLsb' 32 20

/-- `L`, bits 31..0 of an identifier (R82) or of a value (R102). -/
def lowWord (v : Word64) : Word32 := v.extractLsb' 0 32

/-- `W`, the high 32-bit word of a value (R102). -/
def highWord (v : Word64) : Word32 := v.extractLsb' 32 32

/-- The assembly of the high word (R83):
`W = 0x7FF80000 | (H32 & 0x0007FFFF) | ((H32 & 0x00080000) << 12)` with `H32 = zext_32(H)`. -/
def assembleHighWord (h : HighPart) : Word32 :=
  maskExpQ ||| (h.setWidth 32 &&& maskH19) ||| ((h.setWidth 32 &&& maskB19) <<< signShift)

/-- The encoded value `W : L` (R84). -/
def encodedValue (opnd : Word64) : Word64 := assembleHighWord (highPart opnd) ++ lowWord opnd

/-- The reconstruction of `H` (R104): `H32 = (W & 0x0007FFFF) | ((W >> 12) & 0x00080000)`, `H = H32[19:0]`. -/
def reconstructHighPart (w : Word32) : HighPart :=
  ((w &&& maskH19) ||| ((w >>> signShift) &&& maskB19)).setWidth 20

/-- The decoded identifier `H : L`, 52 bits (R104). -/
def decodedIdentifier (v : Word64) : Ident := reconstructHighPart (highWord v) ++ lowWord v

/-- The decoded identifier as `DECODE` delivers it, `zext_64(id)` (R105). -/
def decodedResult (v : Word64) : Word64 := (decodedIdentifier v).setWidth 64

end Sys2Proof.Machine
end

