-- ==== Sys2Proof/Config.lean ====
section
/-! DEFINITION. What the spec leaves free: the draws of spec/00_scope.md R8 (`SCRATCH_RESET`, `RESULT_RESET`,
`RESULT_ON_FAIL`, `SCRATCH_ON_FAIL`), each "any value". The parameters the spec fixes (R7) "a model must not make
configurable": they are constants in Machine/Constants.lean. -/

namespace Sys2Proof

/-- `any_64()` of spec/00_scope.md R10, "a fresh 64-bit value under no law": the n-th draw of a run. It has no body,
so nothing can be proved of a draw's value; the index comes from `State.nextDraw`, which every draw advances, so no
two draws of one run share an index (notes/assumptions/3.md). -/
opaque Config.any64 : Nat → Word64

end Sys2Proof
end

