-- ==== Sys2Proof/Machine/State.lean ====
section
/-! DEFINITION. The state of the codec (spec/10_state.md R24 to R28), the pins the host drives at an edge
(spec/30_encoding.md R60), the two failure kinds (spec/60_exceptions.md R140) and the state after reset (R32). -/

namespace Sys2Proof.Machine

/-- The inputs sampled at one rising clock edge (spec/30_encoding.md R60). The host drives all of them at every edge,
also where the block ignores them. -/
structure Pins where
  /-- `rst`, synchronous, active high. -/
  rst : Bool
  /-- `cmd_valid`: a command is presented. -/
  cmdValid : Bool
  /-- `cmd_op`: true is decode. -/
  cmdOp : Bool
  /-- `cmd_nai`: the "not an integer" tag. -/
  cmdNai : Bool
  /-- `cmd_opnd[63:0]`. -/
  cmdOpnd : Word64
  deriving DecidableEq, Repr

/-- The two failure kinds of a command (R140). They are results of a completed step, not faults of the machine. -/
inductive FailKind where
  /-- "the argument is not of the expected kind" (R141). -/
  | invalidType
  /-- "the argument is of the right kind but outside the domain this codec can represent" (R142). -/
  | outOfRange
  deriving DecidableEq, Repr

/-- The state of one codec instance. The first four fields are the spec's whole state (spec/10_state.md R28); the last
two are the model's own, which the one-argument step needs. -/
structure State where
  /-- `SCRATCH`, 64 bits, hidden from the host (R24, R31). -/
  scratch : Word64
  /-- `RESULT`, 64 bits, on `rsp_result` (R25). -/
  result : Word64
  /-- `STATUS`, 2 bits, on `rsp_status` (R26). Before the first reset it may read 0b11 (R172). -/
  status : Code
  /-- `DONE`, 1 bit, on `rsp_valid` (R27). -/
  done : Bool
  /-- The pins the host will drive at the coming edges, oldest first (notes/assumptions/1.md). -/
  pending : List Pins
  /-- The index of the next draw (notes/assumptions/3.md). -/
  nextDraw : Nat
  deriving DecidableEq, Repr

/-- The machine never stops with a fault: "the block has no trap and no state in which it stops accepting commands"
(spec/93_implementation_defined.md, end of part 1; spec/60_exceptions.md R145). So there is no constructor, nobody
raises one, and nothing is left unsafe. -/
inductive Fault where
  deriving DecidableEq, Repr

/-- Why the model refuses a command. Every command has its meaning, so no arm of `exec` raises it. -/
inductive Refusal where
  /-- A command the model gives no meaning yet; raised by a refused arm of `exec`, of which there is none. Safe. -/
  | notModelled (mnemonic : String)
  deriving DecidableEq, Repr

/-- The state right after reset (R32): `STATUS` is `OK`, `DONE` is 0, `SCRATCH` and `RESULT` are draws, here the
first two of the stream (notes/assumptions/4.md). No pins are pending. -/
def State.reset : State :=
  { scratch := Config.any64 0
    result := Config.any64 1
    status := 0b00#2
    done := false
    pending := []
    nextDraw := 2 }

end Sys2Proof.Machine
end

