-- ==== Sys2Proof/Machine/Flags.lean ====
section
/-! DEFINITION. What the tests of a command compute: the codes of `STATUS` (spec/10_state.md R26), the NaN test and
the mask test of decode (spec/41_decode.md R101, R103), and the classes of a binary64 pattern (spec/42_laws.md R126).
The block has no other flag (spec/10_state.md R23). -/

namespace Sys2Proof.Machine

/-- The code `OK` (R26). -/
def codeOk : Code := 0b00#2

/-- The code of a failure kind (R26, spec/60_exceptions.md R141, R142). -/
def FailKind.code : FailKind → Code
  | .invalidType => 0b01#2
  | .outOfRange => 0b10#2

/-- The exponent field `v[62:52]` (R126). -/
def exponentField (v : Word64) : BitVec 11 := v.extractLsb' 52 11

/-- The mantissa `v[51:0]` (R126). -/
def mantissaField (v : Word64) : BitVec 52 := v.extractLsb' 0 52

/-- The quiet bit `v[51]` (R7). -/
def quietBit (v : Word64) : Bool := v.getLsbD 51

/-- `isNaN64(v)` of spec/00_scope.md R10: `v[62:52] == 0x7FF and v[51:0] != 0`. The spec supplies it from general
knowledge (K1; notes/assumptions/7.md). -/
def isNaN64 (v : Word64) : Bool := exponentField v == expAllOnes && mantissaField v != 0#52

/-- The second check of decode: `(W & 0x7FF80000) == 0x7FF80000`, the AND taken first (R103, conflict C4). -/
def maskCheck (v : Word64) : Bool := highWord v &&& maskExpQ == maskExpQ

/-- The classes of a binary64 pattern (R126). -/
inductive FloatClass where
  /-- Zero, subnormal or normal. -/
  | finite
  /-- An infinity, minus if the sign bit is set. -/
  | infinity (negative : Bool)
  | signallingNaN
  | quietNaN
  deriving DecidableEq, Repr

/-- The class of a pattern (R126). -/
def classify (v : Word64) : FloatClass :=
  if exponentField v == expAllOnes then
    if mantissaField v == 0#52 then .infinity (v.getLsbD 63)
    else if quietBit v then .quietNaN
    else .signallingNaN
  else .finite

end Sys2Proof.Machine
end

