-- ==== Sys2Proof/Machine/Ops.lean ====
section
/-! DEFINITION. The named operations on the state: completing a command with success or with a failure
(spec/60_exceptions.md R146), the reset edge and the idle edge (spec/10_state.md R32, R33), and taking the pins of the
next edge. There is no memory to operate on (spec/20_memory.md R40). -/

namespace Sys2Proof.Machine

/-- A command completes with success: `SCRATCH` takes the pattern that passed through the buffer, `RESULT` the result,
`STATUS <- OK`, `DONE <- 1` (spec/40_encode.md R84, spec/41_decode.md R105). -/
def State.succeed (buffer result : Word64) (s : State) : State :=
  { s with scratch := buffer, result := result, status := codeOk, done := true }

/-- `fail <Kind>`, the block's "trap entry" (spec/60_exceptions.md R146): `STATUS <- code(Kind)`; `RESULT` and
`SCRATCH` take fresh draws; `DONE <- 1`. Nothing is saved and there is no return beside it (R150): the block is ready
for the next command exactly as after a success. -/
def State.failWith (k : FailKind) (s : State) : State :=
  { s with
    scratch := Config.any64 s.nextDraw
    result := Config.any64 (s.nextDraw + 1)
    status := k.code
    done := true
    nextDraw := s.nextDraw + 2 }

/-- How a command ends: with a buffer content and a result, or with a failure kind. A function of the command alone
(spec/42_laws.md R130). -/
inductive Completion where
  /-- Success: what `SCRATCH` and `RESULT` take. -/
  | ok (buffer result : Word64)
  /-- Failure of a kind: no result and no part of one (spec/60_exceptions.md R149). -/
  | fail (kind : FailKind)
  deriving DecidableEq, Repr

/-- The register image of a completion (spec/10_state.md R28). -/
def State.complete (c : Completion) (s : State) : State :=
  match c with
  | .ok buffer result => s.succeed buffer result
  | .fail kind => s.failWith kind

/-- The reset edge (R32, spec/70_reset_and_hazards.md R170): `DONE <- 0`, `STATUS <- 0b00`, fresh draws in `SCRATCH`
and `RESULT`. -/
def State.resetEdge (s : State) : State :=
  { s with
    scratch := Config.any64 s.nextDraw
    result := Config.any64 (s.nextDraw + 1)
    status := codeOk
    done := false
    nextDraw := s.nextDraw + 2 }

/-- The idle edge (R33): `SCRATCH`, `RESULT`, `STATUS` keep their values, `DONE <- 0`. -/
def State.idleEdge (s : State) : State := { s with done := false }

/-- An edge at which nothing is called: `rst = 0`, `cmd_valid = 0` (R33). -/
def Pins.idle : Pins := ⟨false, false, false, false, 0#64⟩

/-- A reset edge: `rst = 1` (spec/30_encoding.md R68 `RESET`). -/
def Pins.reset : Pins := ⟨true, false, false, false, 0#64⟩

/-- An edge that presents the command word `cw` (R61): its three fields on the three inputs of R60. -/
def Pins.command (cw : CommandWord) : Pins :=
  ⟨false, true, cw.getLsbD 65, cw.getLsbD 64, cw.extractLsb' 0 64⟩

/-- The command word on the pins, `cw = cmd_op : cmd_nai : cmd_opnd` (R61). -/
def Pins.commandWord (p : Pins) : CommandWord :=
  BitVec.ofBool p.cmdOp ++ (BitVec.ofBool p.cmdNai ++ p.cmdOpnd : BitVec 65)

/-- The pins of the next edge; when the host has no more to drive, an idle edge (notes/assumptions/2.md). -/
def State.nextPins (s : State) : Pins := s.pending.headD Pins.idle

/-- The state once the next edge's pins are sampled: they are not kept (spec/10_state.md R21). -/
def State.advance (s : State) : State := { s with pending := s.pending.tail }

/-- The host adds edges after those it already means to drive (spec/20_memory.md R46: in the order presented). -/
def State.present (ps : List Pins) (s : State) : State := { s with pending := s.pending ++ ps }

end Sys2Proof.Machine
end

