-- ==== Sys2Proof/Machine/DecodeValue.lean ====
section
/-! DEFINITION. The decode family: `DECODE` (spec/41_decode.md). -/

namespace Sys2Proof.Machine

/-- How `DECODE` ends (R105), the checks in the order of spec/60_exceptions.md R148: the NaN test first
(`InvalidType`, R101), then the mask (`OutOfRange`, R103), else the operand stands in the buffer and the identifier,
zero-extended, is the result. -/
def decodeCompletion (opnd : Word64) : Completion :=
  if isNaN64 opnd then
    if maskCheck opnd then .ok opnd (decodedResult opnd) else .fail .outOfRange
  else .fail .invalidType

/-- `DECODE` (R105). -/
def execDecode (opnd : Word64) (s : State) : Host.Outcome State Fault Refusal :=
  .next (s.complete (decodeCompletion opnd))

end Sys2Proof.Machine
end

