-- ==== Sys2Proof/Machine/Encode.lean ====
section
/-! DEFINITION. The encode family: `ENCODE` and `ENCODE.NAI` (spec/40_encode.md). -/

namespace Sys2Proof.Machine

/-- How `ENCODE` ends: in range the encoded value passes through the buffer into the result (R84), else `OutOfRange`
(R85). The range is checked on the signed identifier (R81). -/
def encodeCompletion (opnd : Word64) : Completion :=
  if identifierInRange opnd then .ok (encodedValue opnd) (encodedValue opnd) else .fail .outOfRange

/-- `ENCODE` (R84, R85). -/
def execEncode (opnd : Word64) (s : State) : Host.Outcome State Fault Refusal :=
  .next (s.complete (encodeCompletion opnd))

/-- How `ENCODE.NAI` ends: always `InvalidType`, whatever the operand field holds (R86). -/
def encodeNaiCompletion : Completion := .fail .invalidType

/-- `ENCODE.NAI` (R86). -/
def execEncodeNai (s : State) : Host.Outcome State Fault Refusal :=
  .next (s.complete encodeNaiCompletion)

end Sys2Proof.Machine
end

