-- ==== Sys2Proof/Machine/Dispatch.lean ====
section
/-! DEFINITION. One arm per command (spec/30_encoding.md R63). -/

namespace Sys2Proof.Machine

def exec (i : Instr) (s : State) : Host.Outcome State Fault Refusal :=
  match i with
  | .encode opnd => Sys2Proof.Machine.execEncode opnd s
  | .encodeNai => Sys2Proof.Machine.execEncodeNai s
  | .decode opnd => Sys2Proof.Machine.execDecode opnd s

end Sys2Proof.Machine
end

