-- ==== Sys2Proof/Machine/Edge.lean ====
section
/-! DEFINITION. What one rising clock edge does with the pins sampled at it (spec/10_state.md R28). -/

namespace Sys2Proof.Machine

/-- The step of R28: a reset if `rst` is 1, whatever `cmd_valid` is (spec/70_reset_and_hazards.md R171); else idle if
`cmd_valid` is 0; else the command on the pins. -/
def clockEdge (p : Pins) (s : State) : Host.Outcome State Fault Refusal :=
  if p.rst then .next s.resetEdge
  else if p.cmdValid then exec (decodeWord p.commandWord) s
  else .next s.idleEdge

end Sys2Proof.Machine
end

