-- ==== Sys2Proof/Machine/Step.lean ====
section
/-! DEFINITION. One step: the pins of the next edge are taken and the edge happens. -/

namespace Sys2Proof.Machine

/-- One rising clock edge (spec/10_state.md R28, spec/20_memory.md R43): the whole command in one step. -/
def step (s : State) : Host.Outcome State Fault Refusal := clockEdge s.nextPins s.advance

/-- `s` with the command word in the low `nbits` bits of `w` presented at the very next edge, before whatever the host
already means to drive (notes/assumptions/5.md). The port has 66 bits; a bit of `w` above them has no pin. -/
def State.withFetchWord (s : State) (nbits w : Nat) : State :=
  { s with pending := Pins.command (BitVec.ofNat 66 (w % 2 ^ nbits)) :: s.pending }

end Sys2Proof.Machine
end

