-- ==== Sys2Proof/Machine/Ports.lean ====
section
/-! DEFINITION. What the host sees of the state (spec/30_encoding.md R60, R64), and the two views of the hidden buffer
(spec/20_memory.md R41). Reading a port is a function of the state, so it has no side effect (R43). -/

namespace Sys2Proof.Machine

/-- The output ports (R60): all of them registers. `SCRATCH` is not among them (spec/10_state.md R24). -/
structure Outputs where
  rspValid : Bool
  rspStatus : Code
  rspResult : Word64
  deriving DecidableEq, Repr

/-- The output ports of a state (R60). -/
def State.outputs (s : State) : Outputs := ⟨s.done, s.status, s.result⟩

/-- What a command returns at transaction level, `Ok(v)` or `Fail(kind)` (spec/00_scope.md glossary,
spec/10_state.md R28). -/
inductive Response where
  | ok (v : Word64)
  | fail (kind : FailKind)
  deriving DecidableEq, Repr

/-- The transaction-level response of a completion: a failure carries no result value (spec/60_exceptions.md R146). -/
def Completion.response : Completion → Response
  | .ok _ result => .ok result
  | .fail kind => .fail kind

/-- The failure kind a `STATUS` code names (spec/10_state.md R26); none for `OK` and for 0b11. -/
def failKindOfCode (c : Code) : Option FailKind :=
  if c = 0b01#2 then some .invalidType else if c = 0b10#2 then some .outOfRange else none

/-- The response on the ports, valid while `DONE == 1` (R64). `STATUS == 0b11` is no response (R26; it can be read
only before the first reset or command: notes/assumptions/8.md). -/
def Outputs.response (o : Outputs) : Option Response :=
  if o.rspValid then
    if o.rspStatus = codeOk then some (.ok o.rspResult) else (failKindOfCode o.rspStatus).map .fail
  else none

/-- The response the host reads in a state (R64). -/
def State.response (s : State) : Option Response := s.outputs.response

/-- Byte k of `SCRATCH`, `SCRATCH[8k+7:8k]` (R41). -/
def State.scratchByte (s : State) (k : Fin 8) : BitVec 8 := s.scratch.extractLsb' (8 * k.val) 8

end Sys2Proof.Machine
end

