-- ==== Sys2Proof/Machine/Assembler.lean ====
section
/-! DEFINITION. The textual form of commands and responses (spec/30_encoding.md R68) and the pseudo-instructions
(R69). Text is a list of characters. -/

namespace Sys2Proof.Machine

/-- One line of R68, its operand as written: an integer, or the hexadecimal digits after `0x`, most significant
first. -/
inductive AsmLine where
  | encodeInt (id : Int)
  | encodeHex (digits : List (BitVec 4))
  | encodeNai
  | encodeNaiHex (digits : List (BitVec 4))
  | decodeHex (digits : List (BitVec 4))
  /-- The pseudo-instruction `DECODE.T` (R69). -/
  | decodeTagged (digits : List (BitVec 4))
  | idle
  | reset
  deriving DecidableEq, Repr

/-- "`0x` followed by 1 to 16 hexadecimal digits" (R68). -/
def hexOperandOk (digits : List (BitVec 4)) : Bool := decide (1 ≤ digits.length ∧ digits.length ≤ 16)

/-- The operand checks of R68. -/
def AsmLine.wellFormed : AsmLine → Bool
  | .encodeInt id => decide (-(2 ^ 63) ≤ id ∧ id < 2 ^ 63)
  | .encodeHex digits => hexOperandOk digits
  | .encodeNai => true
  | .encodeNaiHex digits => hexOperandOk digits
  | .decodeHex digits => hexOperandOk digits
  | .decodeTagged digits => hexOperandOk digits
  | .idle => true
  | .reset => true

/-- The 64 bits of a hexadecimal operand; "shorter literals are zero-extended on the left" (R68). -/
def hexOperand (digits : List (BitVec 4)) : Word64 :=
  BitVec.ofNat 64 (digits.foldl (fun n d => 16 * n + d.toNat) 0)

/-- The command word `op : nai : opnd` (R61). -/
def commandWordOf (op nai : Bool) (opnd : Word64) : CommandWord :=
  BitVec.ofBool op ++ (BitVec.ofBool nai ++ opnd : BitVec 65)

/-- The edge a line stands for (R68, R69): `ENCODE.NAI` without operand has `opnd = 0`, `DECODE.T` has `nai = 1`. -/
def AsmLine.pins : AsmLine → Pins
  | .encodeInt id => Pins.command (commandWordOf false false (BitVec.ofInt 64 id))
  | .encodeHex digits => Pins.command (commandWordOf false false (hexOperand digits))
  | .encodeNai => Pins.command (commandWordOf false true 0#64)
  | .encodeNaiHex digits => Pins.command (commandWordOf false true (hexOperand digits))
  | .decodeHex digits => Pins.command (commandWordOf true false (hexOperand digits))
  | .decodeTagged digits => Pins.command (commandWordOf true true (hexOperand digits))
  | .idle => Pins.idle
  | .reset => Pins.reset

/-- The edge of a well-formed line. -/
def AsmLine.assemble (l : AsmLine) : Option Pins := if l.wellFormed then some l.pins else none

/-- "`;` to end of line is a comment" (R68). -/
def stripComment : List Char → List Char
  | [] => []
  | c :: cs => if c = ';' then [] else c :: stripComment cs

/-- Separators of a line's words (notes/assumptions/10.md). -/
def isBlank (c : Char) : Bool := c = ' ' || c = '\t' || c = '\r'

/-- The words of a line between single separators, empty ones included. -/
def splitAtBlanks : List Char → List (List Char)
  | [] => [[]]
  | c :: cs =>
    match splitAtBlanks cs with
    | [] => [[]]
    | w :: ws => if isBlank c then [] :: w :: ws else (c :: w) :: ws

/-- The words of a line, its comment left out. -/
def lineWords (line : List Char) : List (List Char) :=
  (splitAtBlanks (stripComment line)).filter (fun w => !w.isEmpty)

/-- The value of a character between two others, counted from the first. -/
def charOffset (first last c : Char) : Option Nat :=
  if first.toNat ≤ c.toNat ∧ c.toNat ≤ last.toNat then some (c.toNat - first.toNat) else none

/-- A decimal digit. -/
def decimalDigit (c : Char) : Option Nat := charOffset '0' '9' c

/-- A hexadecimal digit, in either case (notes/assumptions/10.md). -/
def hexDigit (c : Char) : Option (BitVec 4) :=
  ((charOffset '0' '9' c <|> (charOffset 'A' 'F' c).map (· + 10)) <|> (charOffset 'a' 'f' c).map (· + 10)).map
    (BitVec.ofNat 4)

/-- The digits of a word, if every character is one. -/
def digitsOf {α : Type} (digit : Char → Option α) : List Char → Option (List α)
  | [] => some []
  | c :: cs =>
    match digit c, digitsOf digit cs with
    | some d, some ds => some (d :: ds)
    | _, _ => none

/-- `0x` and hexadecimal digits; how many is checked by `AsmLine.wellFormed`. -/
def parseHex : List Char → Option (List (BitVec 4))
  | '0' :: 'x' :: cs => digitsOf hexDigit cs
  | _ => none

/-- At least one decimal digit. -/
def parseNatural : List Char → Option Nat
  | [] => none
  | c :: cs => (digitsOf decimalDigit (c :: cs)).map (·.foldl (fun n d => 10 * n + d) 0)

/-- "a decimal integer with optional leading `-`" (R68). -/
def parseInteger : List Char → Option Int
  | '-' :: cs => (parseNatural cs).map (fun n => -(n : Int))
  | cs => (parseNatural cs).map (fun n => (n : Int))

/-- The `ENCODE` operand: hexadecimal if it begins with `0x`, else decimal (R68). -/
def parseEncodeOperand (w : List Char) : Option AsmLine :=
  match parseHex w with
  | some digits => some (.encodeHex digits)
  | none => (parseInteger w).map .encodeInt

/-- One command from the words of its line (R68, R69). R68 writes the expected response after `->` and leaves open
whether an assembler reads it as part of the line; here it is no part of it, so a line with `->` outside a comment is no
line: DESIGN CHOICE (notes/assumptions/11.md). -/
def parseWords : List (List Char) → Option AsmLine
  | [m] =>
    if m = ['I', 'D', 'L', 'E'] then some .idle
    else if m = ['R', 'E', 'S', 'E', 'T'] then some .reset
    else if m = ['E', 'N', 'C', 'O', 'D', 'E', '.', 'N', 'A', 'I'] then some .encodeNai
    else none
  | [m, w] =>
    if m = ['E', 'N', 'C', 'O', 'D', 'E'] then parseEncodeOperand w
    else if m = ['E', 'N', 'C', 'O', 'D', 'E', '.', 'N', 'A', 'I'] then (parseHex w).map .encodeNaiHex
    else if m = ['D', 'E', 'C', 'O', 'D', 'E'] then (parseHex w).map .decodeHex
    else if m = ['D', 'E', 'C', 'O', 'D', 'E', '.', 'T'] then (parseHex w).map .decodeTagged
    else none
  | _ => none

/-- One line of text to the edge it stands for; none where it is no line of R68. -/
def assembleLine (line : List Char) : Option Pins := (parseWords (lineWords line)).bind AsmLine.assemble

/-- The edges of a program, "one command per line" (R68); a line with no word is skipped (notes/assumptions/10.md),
and one bad line refuses the program. -/
def assembleProgram : List (List Char) → Option (List Pins)
  | [] => some []
  | line :: lines =>
    if (lineWords line).isEmpty then assembleProgram lines
    else
      match assembleLine line, assembleProgram lines with
      | some p, some ps => some (p :: ps)
      | _, _ => none

/-- A hexadecimal digit as a character. -/
def hexChar (d : BitVec 4) : Char :=
  if d.toNat < 10 then Char.ofNat ('0'.toNat + d.toNat) else Char.ofNat ('A'.toNat + (d.toNat - 10))

/-- The 16 hexadecimal digits of a word, most significant first. -/
def hex64 (v : Word64) : List Char := (List.range 16).map (fun k => hexChar (v.extractLsb' (60 - 4 * k) 4))

/-- A response as R68 writes it after `->`: `OK <hex64>`, `InvalidType` or `OutOfRange`. -/
def Response.text : Response → List Char
  | .ok v => ['O', 'K', ' ', '0', 'x'] ++ hex64 v
  | .fail .invalidType => ['I', 'n', 'v', 'a', 'l', 'i', 'd', 'T', 'y', 'p', 'e']
  | .fail .outOfRange => ['O', 'u', 't', 'O', 'f', 'R', 'a', 'n', 'g', 'e']

end Sys2Proof.Machine
end

