-- ==== Sys2Proof/Machine/Transaction.lean ====
section
/-! DEFINITION. The transaction-level view of the codec (spec/10_state.md R28): `exec(op, nai, opnd)` returning
`Ok(v)` or `Fail(kind)`, with no state. -/

namespace Sys2Proof.Machine

/-- How a command ends: a function of the command alone (spec/42_laws.md R130). -/
def completionOf : Instr → Completion
  | .encode opnd => encodeCompletion opnd
  | .encodeNai => encodeNaiCompletion
  | .decode opnd => decodeCompletion opnd

/-- The transaction-level response of a command (spec/00_scope.md R13, spec/10_state.md R28). -/
def transact (i : Instr) : Response := (completionOf i).response

/-- The response an edge produces: none for a reset edge, also one that presents a command
(spec/70_reset_and_hazards.md R171), and none for an idle edge. -/
def Pins.response (p : Pins) : Option Response :=
  if p.rst then none
  else if p.cmdValid then some (transact (decodeWord p.commandWord))
  else none

end Sys2Proof.Machine
end

