-- ==== Sys2Proof/Machine/HostCalls.lean ====
section
/-! DEFINITION. How a caller's `encode` and `decode` map to commands (spec/30_encoding.md R70). -/

namespace Sys2Proof.Machine

/-- A call of the two public operations (spec/00_scope.md R3): the identifier is a mathematical integer (R11), or the
caller's datum is not an integer-valued number. -/
inductive Call where
  | encode (id : Int)
  | encodeNotAnInteger
  | decode (value : Word64)
  deriving DecidableEq, Repr

/-- What the host does with a call (R70). -/
inductive Presentation where
  /-- It presents a command. -/
  | command (i : Instr)
  /-- It answers by itself, since the identifier has no 64-bit representation. -/
  | hostReports (kind : FailKind)
  deriving DecidableEq, Repr

/-- The integers the operand port can carry, [-2^63, 2^63 - 1] (R62, R70). -/
def presentable (id : Int) : Bool := decide (-(2 ^ 63) ≤ id ∧ id < 2 ^ 63)

/-- The mapping of R70. Of R70's two ways with an integer the port cannot carry, "the host must report `OutOfRange`
itself or present any out-of-range representable integer", the first (notes/assumptions/9.md). -/
def Call.present : Call → Presentation
  | .encode id => if presentable id then .command (.encode (BitVec.ofInt 64 id)) else .hostReports .outOfRange
  | .encodeNotAnInteger => .command .encodeNai
  | .decode value => .command (.decode value)

/-- What the caller gets: "A successful call returns `RESULT`; a failing call returns the kind in `STATUS`" (R70). -/
def Call.response (c : Call) : Response :=
  match c.present with
  | .command i => transact i
  | .hostReports kind => .fail kind

end Sys2Proof.Machine
end

