-- ==== Sys2Proof/Safety.lean ====
section
/-! DEFINITION. The terms the statements use: the set of quiet-NaN patterns (spec/42_laws.md, notation), the valid
identifiers, the invariant of the registers, and the observation of a run (spec/00_scope.md R13). -/

namespace Sys2Proof.Machine

/-- The set `Q` of quiet-NaN patterns: `v[62:52] == 0x7FF` and `v[51] == 1` (spec/42_laws.md, notation). -/
def QuietPattern (v : Word64) : Prop := v.extractLsb' 52 11 = 0x7FF#11 ∧ v.getLsbD 51 = true

/-- The operands that are identifiers: `opnd[63:52] == 0` (spec/40_encode.md R81). -/
def ValidIdentifier (opnd : Word64) : Prop := opnd.extractLsb' 52 12 = 0#12

/-- The layout of spec/30_encoding.md R65 in one line: `v = id[51] : 0b11111111111 : 0b1 : id[50:0]`. -/
def layoutOf (id : Ident) : Word64 := id.extractLsb' 51 1 ++ (0x7FF#11 ++ (1#1 ++ id.extractLsb' 0 51))

/-- The inverse of the layout in one line (R65): `id = v[63] : v[50:0]`. -/
def identOf (v : Word64) : Ident := v.extractLsb' 63 1 ++ v.extractLsb' 0 51

/-- What holds of the registers from the first reset or the first command onward
(spec/70_reset_and_hazards.md R172): `STATUS` is one of the three codes; and while the response of a success is valid,
`SCRATCH` holds a quiet-NaN pattern and `RESULT` that pattern (after `ENCODE`) or its identifier (after `DECODE`). -/
def RegistersCoherent (s : State) : Prop :=
  s.status ≠ 0b11#2 ∧
  (s.done = true → s.status = codeOk →
    QuietPattern s.scratch ∧ (s.result = s.scratch ∨ s.result = (identOf s.scratch).setWidth 64))

/-- A step is safe where it answers a next state. -/
def StepsOn (s : State) : Prop := ∃ t, step s = .next t

/-- The responses of `k` edges, in order: the observation of spec/00_scope.md R13. -/
def observe : Nat → State → List Response
  | 0, _ => []
  | k + 1, s =>
    match step s with
    | .next t => t.response.toList ++ observe k t
    | .fault _ => []
    | .refused _ => []

/-- Two states the host cannot tell apart: equal but for the hidden register `SCRATCH` (spec/10_state.md R31). -/
def SameButScratch (s t : State) : Prop := { s with scratch := t.scratch } = t

end Sys2Proof.Machine
end

