-- ==== Sys2Proof/Certificates/Slice0/Obligations.lean ====
section
/-! DEFINITION. The statements for the provers. The block has no general register, no memory, no program counter and
no flag (spec/10_state.md R20, R22, R23, spec/20_memory.md R40), so a frame here speaks of SCRATCH, RESULT, STATUS,
DONE and of the model's own two fields. A draw is written as "there are values": which index of the stream it takes is
the model's choice and stands in one statement of its own (`DrawsAreFreshStreamEntries`). -/

open Sys2Proof Sys2Proof.Machine

/-! ### Edges -/

/-- A step at whose edge a command is presented is `exec` of the decoded command, on the state with that edge taken;
and `withFetchWord` presents exactly the table word's command (spec/10_state.md R28, spec/30_encoding.md R63; the list
of pending edges is the model's, logs 1 and 5). -/
def Obligations.StepRunsPresentedCommand : Prop :=
  (∀ (s : State) (p : Pins) (ps : List Pins), s.pending = p :: ps → p.rst = false → p.cmdValid = true →
    step s = exec (decodeWord p.commandWord) { s with pending := ps }) ∧
  (∀ (s : State) (nbits w : Nat) (i : Instr), decodeTableWord nbits w = some i →
    step (s.withFetchWord nbits w) = exec i s)

/-- R171: reset wins over a command at the same edge. Whatever the other pins hold, STATUS is 0b00 and DONE 0
afterwards, and there is no response. -/
def Obligations.ResetEdgeWins : Prop :=
  ∀ (s : State) (p : Pins) (ps : List Pins), s.pending = p :: ps → p.rst = true →
    ∃ (a b : Word64) (n : Nat),
      step s = .next { scratch := a, result := b, status := 0b00#2, done := false, pending := ps, nextDraw := n } ∧
      ∀ t, step s = .next t → t.response = none

/-- R33: the idle edge keeps SCRATCH, RESULT and STATUS, clears DONE, and ignores `op`, `nai` and `opnd`. -/
def Obligations.IdleEdgeHoldsRegisters : Prop :=
  ∀ (s : State) (op nai : Bool) (opnd : Word64) (ps : List Pins),
    s.pending = ⟨false, false, op, nai, opnd⟩ :: ps →
    step s = .next { scratch := s.scratch, result := s.result, status := s.status, done := false,
                     pending := ps, nextDraw := s.nextDraw }

/-- R27: at every edge outside reset DONE takes `cmd_valid`; when that is 1, the response on the ports is the response
of the command presented at that edge. -/
def Obligations.DoneFollowsCmdValid : Prop :=
  ∀ (s : State) (p : Pins) (ps : List Pins), s.pending = p :: ps → p.rst = false →
    ∃ t, step s = .next t ∧ t.done = p.cmdValid ∧
      (p.cmdValid = true → t.response = some (transact (decodeWord p.commandWord)))

/-- Where the host has no more edges to drive, the model's host drives an idle edge: the model's choice (log 2). -/
def Obligations.NoMoreEdgesIsIdle : Prop :=
  ∀ s : State, s.pending = [] → step s = .next { s with done := false }

/-- The state after reset (R32): STATUS is OK, DONE is 0, no response is readable. SCRATCH and RESULT are draws and
the two fields of the model's own are its choice (log 4); nothing is said of them. -/
def Obligations.ResetLeavesStatusAndDone : Prop :=
  State.reset.status = 0b00#2 ∧ State.reset.done = false ∧ State.reset.response = none

/-! ### ENCODE and ENCODE.NAI -/

/-- R81: ENCODE never fails with InvalidType, succeeds exactly when the signed operand lies in [0, 2^52 - 1] and fails
with OutOfRange exactly when it does not; and (the spec's own derivation) the range test is the bit test
`opnd[63:52] == 0`. -/
def Obligations.EncodeRangeCheck : Prop :=
  ∀ (opnd : Word64) (s : State),
    (∃ t, exec (.encode opnd) s = .next t ∧ t.status ≠ 0b01#2 ∧
      (t.status = 0b00#2 ↔ 0 ≤ opnd.toInt ∧ opnd.toInt ≤ 4503599627370495) ∧
      (t.status = 0b10#2 ↔ opnd.toInt < 0 ∨ opnd.toInt > 4503599627370495)) ∧
    (0 ≤ opnd.toInt ∧ opnd.toInt ≤ 4503599627370495 ↔ opnd.extractLsb' 52 12 = 0#12)

/-- R84: on an identifier ENCODE completes with the pattern of the mask-and-shift algorithm, which is also the pattern
of the one-line layout, in SCRATCH and RESULT, with STATUS OK and DONE 1; the pending edges and the draws are as
before. (That SCRATCH holds the pattern is an inference the spec marks as its own in R84.) -/
def Obligations.EncodeSuccess : Prop :=
  ∀ (opnd : Word64) (s : State), opnd.extractLsb' 52 12 = 0#12 →
    ∃ v : Word64,
      v = ((0x7FF80000#32 ||| ((opnd.extractLsb' 32 20).setWidth 32 &&& 0x0007FFFF#32) |||
            (((opnd.extractLsb' 32 20).setWidth 32 &&& 0x00080000#32) <<< 12)) ++ opnd.extractLsb' 0 32 : BitVec 64) ∧
      v = opnd.extractLsb' 51 1 ++ (0x7FF#11 ++ (1#1 ++ opnd.extractLsb' 0 51)) ∧
      exec (.encode opnd) s = .next { s with scratch := v, result := v, status := 0b00#2, done := true }

/-- R85: on any other operand ENCODE completes with OutOfRange, SCRATCH and RESULT taking any value. The hypothesis is
R85's condition in both of its forms. -/
def Obligations.EncodeFailure : Prop :=
  ∀ (opnd : Word64) (s : State),
    (opnd.extractLsb' 52 12 ≠ 0#12 ∨ opnd.toInt < 0 ∨ opnd.toInt > 4503599627370495) →
    ∃ (a b : Word64) (n : Nat),
      exec (.encode opnd) s =
        .next { s with scratch := a, result := b, status := 0b10#2, done := true, nextDraw := n }

/-- R86: ENCODE.NAI is `op == 0`, `nai == 1` with any operand field, and always completes with InvalidType, SCRATCH
and RESULT taking any value. -/
def Obligations.EncodeNaiAlwaysFails : Prop :=
  (∀ opnd : Word64, decodeWord (0b01#2 ++ opnd) = .encodeNai) ∧
  ∀ s : State, ∃ (a b : Word64) (n : Nat),
    exec .encodeNai s = .next { s with scratch := a, result := b, status := 0b01#2, done := true, nextDraw := n }

/-- R83: the high word of a successful ENCODE is the OR of three words with disjoint bits, equal to their sum and to
the concatenation `H[19] : 0x7FF : 1 : H[18:0]`. -/
def Obligations.EncodeHighWord : Prop :=
  ∀ (opnd : Word64) (s : State), opnd.extractLsb' 52 12 = 0#12 →
    ∃ (h : BitVec 20) (x y z w : BitVec 32) (t : State),
      h = opnd.extractLsb' 32 20 ∧ x = 0x7FF80000#32 ∧ y = h.setWidth 32 &&& 0x0007FFFF#32 ∧
      z = (h.setWidth 32 &&& 0x00080000#32) <<< 12 ∧
      exec (.encode opnd) s = .next t ∧ t.result.extractLsb' 32 32 = w ∧
      w = x ||| y ||| z ∧ x &&& y = 0#32 ∧ x &&& z = 0#32 ∧ y &&& z = 0#32 ∧ w = x + y + z ∧
      w = h.extractLsb' 19 1 ++ (0x7FF#11 ++ (1#1 ++ h.extractLsb' 0 19))

/-! ### DECODE -/

/-- R101: DECODE completes with InvalidType on every operand that is not a NaN. (The bit-level NaN test is the spec's
own from general knowledge, K1: log 7.) -/
def Obligations.DecodeNotNaN : Prop :=
  ∀ (v : Word64) (s : State), (v.extractLsb' 52 11 ≠ 0x7FF#11 ∨ v.extractLsb' 0 52 = 0#52) →
    ∃ (a b : Word64) (n : Nat),
      exec (.decode v) s = .next { s with scratch := a, result := b, status := 0b01#2, done := true, nextDraw := n }

/-- R103: on a NaN the mask check `(W & 0x7FF80000) == 0x7FF80000` fails exactly when `v[51] == 0`; then DECODE
completes with OutOfRange, and otherwise it passes, whatever the other bits. (That an operand with exponent all ones and
any nonzero mantissa is a NaN, so that its failure is OutOfRange, is the spec's own from general knowledge, K1: log 7.) -/
def Obligations.DecodeMaskCheck : Prop :=
  ∀ (v : Word64) (s : State), v.extractLsb' 52 11 = 0x7FF#11 → v.extractLsb' 0 52 ≠ 0#52 →
    ((v.extractLsb' 32 32 &&& 0x7FF80000#32) ≠ 0x7FF80000#32 ↔ v.getLsbD 51 = false) ∧
    (v.getLsbD 51 = false → ∃ (a b : Word64) (n : Nat),
      exec (.decode v) s =
        .next { s with scratch := a, result := b, status := 0b10#2, done := true, nextDraw := n }) ∧
    (v.getLsbD 51 = true → ∃ t, exec (.decode v) s = .next t ∧ t.status = 0b00#2)

/-- R104 and R105: on a quiet-NaN pattern DECODE completes with the operand in SCRATCH and the identifier,
zero-extended, in RESULT; the identifier is that of the mask-and-shift algorithm, with the shift read either way, and
that of the one-line layout. (That SCRATCH holds the operand and that the two shifts agree are inferences the spec
marks as its own.) -/
def Obligations.DecodeSuccess : Prop :=
  ∀ (v : Word64) (s : State), v.extractLsb' 52 11 = 0x7FF#11 → v.getLsbD 51 = true →
    ∃ (w h32 : BitVec 32) (id : BitVec 52),
      w = v.extractLsb' 32 32 ∧
      h32 = (w &&& 0x0007FFFF#32) ||| ((w >>> 12) &&& 0x00080000#32) ∧
      h32 = (w &&& 0x0007FFFF#32) ||| ((w.sshiftRight 12) &&& 0x00080000#32) ∧
      id = (h32.extractLsb' 0 20 ++ v.extractLsb' 0 32 : BitVec 52) ∧
      id = v.extractLsb' 63 1 ++ v.extractLsb' 0 51 ∧
      exec (.decode v) s = .next { s with scratch := v, result := id.setWidth 64, status := 0b00#2, done := true }

/-- R106 and R126: the outcome of DECODE is a function of the class of the operand: finite numbers and infinities fail
InvalidType, signalling patterns OutOfRange, quiet patterns succeed. (The classes rest on K1 and K3, the spec's own
from general knowledge: log 7.) -/
def Obligations.DecodeByClass : Prop :=
  ∀ (v : Word64) (s : State), ∃ t, exec (.decode v) s = .next t ∧
    (v.extractLsb' 52 11 ≠ 0x7FF#11 → classify v = .finite ∧ t.response = some (.fail .invalidType)) ∧
    (v.extractLsb' 52 11 = 0x7FF#11 → v.extractLsb' 0 52 = 0#52 →
      classify v = .infinity (v.getLsbD 63) ∧ t.response = some (.fail .invalidType)) ∧
    (v.extractLsb' 52 11 = 0x7FF#11 → v.getLsbD 51 = false → v.extractLsb' 0 51 ≠ 0#51 →
      classify v = .signallingNaN ∧ t.response = some (.fail .outOfRange)) ∧
    (v.extractLsb' 52 11 = 0x7FF#11 → v.getLsbD 51 = true →
      classify v = .quietNaN ∧
        t.response = some (.ok ((v.extractLsb' 63 1 ++ v.extractLsb' 0 51 : BitVec 52).setWidth 64)))

/-! ### All commands -/

/-- R28: every command completes, from every state, and the response on the ports is the register image of its
transaction-level response, a function of the command alone. -/
def Obligations.RegisterViewIsTheResponse : Prop :=
  ∀ (i : Instr) (s : State), ∃ t, exec i s = .next t ∧ t.done = true ∧ t.response = some (transact i) ∧
    (∀ v, transact i = .ok v → t.status = 0b00#2 ∧ t.result = v) ∧
    (transact i = .fail .invalidType → t.status = 0b01#2) ∧
    (transact i = .fail .outOfRange → t.status = 0b10#2)

/-- R144: the complete outcome table, its rows by the bits of the operand; every command completes. (Its DECODE rows
rest on the NaN test K1, the spec's own from general knowledge: log 7.) -/
def Obligations.OutcomeTable : Prop :=
  ∀ (opnd : Word64) (s : State), ∃ e n d : State,
    exec (.encode opnd) s = .next e ∧ exec .encodeNai s = .next n ∧ exec (.decode opnd) s = .next d ∧
    (opnd.extractLsb' 52 12 = 0#12 → e.status = 0b00#2 ∧
      e.result = opnd.extractLsb' 51 1 ++ (0x7FF#11 ++ (1#1 ++ opnd.extractLsb' 0 51))) ∧
    (opnd.extractLsb' 52 12 ≠ 0#12 → e.status = 0b10#2) ∧
    n.status = 0b01#2 ∧
    (opnd.extractLsb' 52 11 ≠ 0x7FF#11 → d.status = 0b01#2) ∧
    (opnd.extractLsb' 52 11 = 0x7FF#11 → opnd.extractLsb' 0 52 = 0#52 → d.status = 0b01#2) ∧
    (opnd.extractLsb' 52 11 = 0x7FF#11 → opnd.getLsbD 51 = false → opnd.extractLsb' 0 51 ≠ 0#51 →
      d.status = 0b10#2) ∧
    (opnd.extractLsb' 52 11 = 0x7FF#11 → opnd.getLsbD 51 = true → d.status = 0b00#2 ∧
      d.result = (opnd.extractLsb' 63 1 ++ opnd.extractLsb' 0 51 : BitVec 52).setWidth 64)

/-- R141: InvalidType, code 0b01, is raised by ENCODE.NAI always, by DECODE exactly when the operand is not a NaN, and
never by ENCODE. (The bit-level NaN test is the spec's own from general knowledge, K1: log 7.) -/
def Obligations.InvalidTypeRaisedBy : Prop :=
  ∀ (i : Instr) (s t : State), exec i s = .next t →
    (t.status = 0b01#2 ↔
      i = .encodeNai ∨ ∃ v, i = .decode v ∧ ¬(v.extractLsb' 52 11 = 0x7FF#11 ∧ v.extractLsb' 0 52 ≠ 0#52))

/-- R142: OutOfRange, code 0b10, is raised by ENCODE exactly when `opnd[63:52] != 0`, by DECODE exactly when the operand
is a NaN with `v[51] == 0`, and never by ENCODE.NAI. (The bit-level NaN test is the spec's own from general knowledge,
K1: log 7.) -/
def Obligations.OutOfRangeRaisedBy : Prop :=
  ∀ (i : Instr) (s t : State), exec i s = .next t →
    (t.status = 0b10#2 ↔
      (∃ opnd, i = .encode opnd ∧ opnd.extractLsb' 52 12 ≠ 0#12) ∨
      ∃ v, i = .decode v ∧ v.extractLsb' 52 11 = 0x7FF#11 ∧ v.extractLsb' 0 52 ≠ 0#52 ∧ v.getLsbD 51 = false)

/-- R146: what a failing command does: STATUS takes the code of the kind, RESULT and SCRATCH any value, DONE 1; nothing
is saved, and the block is ready for the next command. -/
def Obligations.FailureEntry : Prop :=
  ∀ (i : Instr) (s : State) (k : FailKind), transact i = .fail k →
    ∃ (a b : Word64) (n : Nat) (t : State),
      t = { s with
            scratch := a, result := b, done := true, nextDraw := n,
            status := match k with
              | .invalidType => 0b01#2
              | .outOfRange => 0b10#2 } ∧
      exec i s = .next t ∧ ∀ j, ∃ u, exec j t = .next u ∧ u.response = some (transact j)

/-- The frame of every command: the edges still pending are untouched, STATUS is never the reserved code, and a
success takes no draw. No other state exists (R28). -/
def Obligations.CommandFrame : Prop :=
  ∀ (i : Instr) (s t : State), exec i s = .next t →
    t.pending = s.pending ∧ t.done = true ∧ t.status ≠ 0b11#2 ∧ (t.status = 0b00#2 → t.nextDraw = s.nextDraw)

/-- The model's choice of draws (log 3): a failing command and a reset edge take the next two entries of the stream,
SCRATCH first, and move the index past them; a successful command and an idle edge take none and leave the index; and
no step moves the index in another way. -/
def Obligations.DrawsAreFreshStreamEntries : Prop :=
  (∀ (i : Instr) (s : State) (k : FailKind), transact i = .fail k →
    ∃ t, exec i s = .next t ∧ t.scratch = Config.any64 s.nextDraw ∧ t.result = Config.any64 (s.nextDraw + 1) ∧
      t.nextDraw = s.nextDraw + 2) ∧
  (∀ (s : State) (p : Pins) (ps : List Pins), s.pending = p :: ps → p.rst = true →
    ∃ t, step s = .next t ∧ t.scratch = Config.any64 s.nextDraw ∧ t.result = Config.any64 (s.nextDraw + 1) ∧
      t.nextDraw = s.nextDraw + 2) ∧
  (∀ (i : Instr) (s : State) (v : Word64), transact i = .ok v →
    ∃ t, exec i s = .next t ∧ t.nextDraw = s.nextDraw) ∧
  (∀ (s : State) (p : Pins) (ps : List Pins), s.pending = p :: ps → p.rst = false → p.cmdValid = false →
    ∃ t, step s = .next t ∧ t.nextDraw = s.nextDraw) ∧
  (∀ s t : State, step s = .next t → t.nextDraw = s.nextDraw ∨ t.nextDraw = s.nextDraw + 2)

/-- R130: for all states s1, s2 and every command, the STATUS written is the same and, when it is OK, the RESULT and
the SCRATCH written are the same. -/
def Obligations.HistoryIndependence : Prop :=
  ∀ (i : Instr) (s1 s2 : State), ∃ t1 t2,
    exec i s1 = .next t1 ∧ exec i s2 = .next t2 ∧ t1.status = t2.status ∧
    (t1.status = 0b00#2 → t1.result = t2.result ∧ t1.scratch = t2.scratch)

/-- R129 and R140: every step, from every state, is answered by a next state: no fault, no refusal, no hang. -/
def Obligations.EveryStepCompletes : Prop := ∀ s : State, StepsOn s

/-! ### Decoder -/

/-- R63: `op` and `nai` select the command form, and of the three rows of the opcode map exactly the row of that form
covers the word. -/
def Obligations.OpcodeMapSelects : Prop :=
  ∀ cw : CommandWord,
    (cw.getLsbD 65 = false → cw.getLsbD 64 = false → decodeWord cw = .encode (cw.extractLsb' 0 64)) ∧
    (cw.getLsbD 65 = false → cw.getLsbD 64 = true → decodeWord cw = .encodeNai) ∧
    (cw.getLsbD 65 = true → decodeWord cw = .decode (cw.extractLsb' 0 64)) ∧
    (cw &&& 0x30000000000000000#66 = 0x00000000000000000#66 ↔ ∃ opnd, decodeWord cw = .encode opnd) ∧
    (cw &&& 0x30000000000000000#66 = 0x10000000000000000#66 ↔ decodeWord cw = .encodeNai) ∧
    (cw &&& 0x20000000000000000#66 = 0x20000000000000000#66 ↔ ∃ opnd, decodeWord cw = .decode opnd) ∧
    ∃! row, row ∈ opcodeMap ∧ row.covers cw = true

/-- R71: decoding an encoded command gives it back, with every operand; and encoding a decoded word gives the word back
exactly when the word is in the canonical form. -/
def Obligations.DecodeEncodeRoundTrip : Prop :=
  (∀ i : Instr, decodeWord (encodeWord i) = i) ∧
  (∀ cw : CommandWord, encodeWord (decodeWord cw) = cw ↔
    ((cw.getLsbD 65 = true → cw.getLsbD 64 = false) ∧
     (cw.getLsbD 65 = false → cw.getLsbD 64 = true → cw.extractLsb' 0 64 = 0#64))) ∧
  (∀ cw : CommandWord, canonicalWord cw = true ↔ encodeWord (decodeWord cw) = cw)

/-- R66, the don't-care fields: `nai` does not matter on DECODE, `opnd` does not matter on ENCODE.NAI, and none of `op`,
`nai`, `opnd` matters when no command is valid. -/
def Obligations.DontCareFields : Prop :=
  (∀ opnd : Word64, decodeWord (0b10#2 ++ opnd) = decodeWord (0b11#2 ++ opnd)) ∧
  (∀ a b : Word64, decodeWord (0b01#2 ++ a) = decodeWord (0b01#2 ++ b)) ∧
  (∀ (op nai op' nai' : Bool) (a b : Word64) (s : State),
    clockEdge ⟨false, false, op, nai, a⟩ s = clockEdge ⟨false, false, op', nai', b⟩ s)

/-- Some words written out from R61 and R63 decode to the command they stand for; and a number of 2^66 is no command
word and is rejected, which is the model's choice (log 6), since every number below it is a command word (R66). -/
def Obligations.SomeWordsDecode : Prop :=
  decodeTableWord 72 0x0000000000000007D = some (.encode 125#64) ∧
  decodeTableWord 72 0x13FF8000000000000 = some .encodeNai ∧
  decodeTableWord 72 0x27FF800000000007D = some (.decode 0x7FF800000000007D#64) ∧
  decodeTableWord 72 0x37FF800000000007D = some (.decode 0x7FF800000000007D#64) ∧
  decodeTableWord 72 0x40000000000000000 = none

/-! ### The laws tying the two commands -/

/-- R120: for every operand that is an identifier, ENCODE gives some v and DECODE of v, from any state, gives the
operand back. -/
def Obligations.RoundTrip : Prop :=
  ∀ (opnd : Word64) (s s' : State), opnd.extractLsb' 52 12 = 0#12 →
    ∃ t u, exec (.encode opnd) s = .next t ∧ t.status = 0b00#2 ∧
      exec (.decode t.result) s' = .next u ∧ u.status = 0b00#2 ∧ u.result = opnd

/-- R121, the strong form: for every quiet-NaN pattern v, DECODE gives an r with `r[63:52] == 0` and ENCODE of r, from
any state, gives v back, the same 64 bits. -/
def Obligations.ReverseRoundTrip : Prop :=
  ∀ (v : Word64) (s s' : State), QuietPattern v →
    ∃ t u, exec (.decode v) s = .next t ∧ t.status = 0b00#2 ∧ t.result.extractLsb' 52 12 = 0#12 ∧
      exec (.encode t.result) s' = .next u ∧ u.status = 0b00#2 ∧ u.result = v

/-- R122: every result of a successful ENCODE has the exponent all ones and the quiet bit set, hence a nonzero mantissa:
it is a NaN, and no signalling pattern, infinity or finite number. -/
def Obligations.EncodedValueIsQuietNaN : Prop :=
  ∀ (opnd : Word64) (s t : State), exec (.encode opnd) s = .next t → t.status = 0b00#2 →
    t.result.extractLsb' 52 11 = 0x7FF#11 ∧ t.result.getLsbD 51 = true ∧ t.result.extractLsb' 0 52 ≠ 0#52 ∧
    isNaN64 t.result = true ∧ QuietPattern t.result

/-- R123: encoding is a bijection from the identifiers onto the quiet-NaN patterns, decoding is its inverse there, and
the set DECODE accepts is the set ENCODE produces. -/
def Obligations.EncodingIsABijection : Prop :=
  (∀ v : Word64, QuietPattern v ↔ ∃! opnd : Word64, ValidIdentifier opnd ∧ transact (.encode opnd) = .ok v) ∧
  (∀ opnd v : Word64, transact (.encode opnd) = .ok v ↔ transact (.decode v) = .ok opnd) ∧
  (∀ v : Word64, (∃ r, transact (.decode v) = .ok r) ↔ QuietPattern v)

/-- R124: distinct identifiers have distinct patterns, distinct accepted patterns distinct identifiers, and with
identifier bit 51 fixed the pattern grows with the identifier, both as unsigned integers. -/
def Obligations.EncodingInjectiveAndIncreasingInEachHalf : Prop :=
  (∀ a b v : Word64, transact (.encode a) = .ok v → transact (.encode b) = .ok v → a = b) ∧
  (∀ v w r : Word64, transact (.decode v) = .ok r → transact (.decode w) = .ok r → v = w) ∧
  (∀ a b v w : Word64, transact (.encode a) = .ok v → transact (.encode b) = .ok w →
    a.getLsbD 51 = b.getLsbD 51 → (a.toNat < b.toNat ↔ v.toNat < w.toNat))

/-- R131: the census of the operands: how many of the 2^64 DECODE accepts, turns away with OutOfRange and with
InvalidType, and how many ENCODE accepts and turns away. (It rests on the NaN test K1: log 7.) -/
def Obligations.Census : Prop :=
  Nat.card { v : Word64 // ∃ r, transact (.decode v) = .ok r } = 4503599627370496 ∧
  Nat.card { v : Word64 // transact (.decode v) = .fail .outOfRange } = 4503599627370494 ∧
  Nat.card { v : Word64 // transact (.decode v) = .fail .invalidType } = 18437736874454810626 ∧
  Nat.card { v : Word64 // ∃ r, transact (.encode v) = .ok r } = 4503599627370496 ∧
  Nat.card { v : Word64 // transact (.encode v) = .fail .outOfRange } = 2 ^ 64 - 2 ^ 52

/-- The contract of the two public operations as a caller sees it (spec/30_encoding.md R70, spec/40_encode.md R81,
spec/41_decode.md R101 to R104). For every mathematical integer, one that the 64-bit port cannot carry included (there
the host answers: log 9), encode gives the layout of an integer in [0, 2^52 - 1], which decode turns back into it, and
OutOfRange otherwise; a datum that is no integer gives InvalidType. For every 64-bit value, decode gives InvalidType
where it is not a NaN, OutOfRange where it is a signalling pattern, and v[63] : v[50:0] where it is a quiet one. (The
bit-level NaN test is the spec's own from general knowledge, K1: log 7.) -/
def Obligations.CallerContract : Prop :=
  (∀ id : Int, 0 ≤ id → id ≤ 4503599627370495 →
    (Call.encode id).response = .ok (layoutOf (BitVec.ofInt 52 id)) ∧
    (Call.decode (layoutOf (BitVec.ofInt 52 id))).response = .ok (BitVec.ofInt 64 id)) ∧
  (∀ id : Int, id < 0 ∨ id > 4503599627370495 →
    (Call.encode id).response = .fail .outOfRange ∧
    (Call.encode id).response = transact (.encode (BitVec.ofInt 64 (-1)))) ∧
  Call.encodeNotAnInteger.response = .fail .invalidType ∧
  (∀ v : Word64, v.extractLsb' 52 11 ≠ 0x7FF#11 ∨ v.extractLsb' 0 52 = 0#52 →
    (Call.decode v).response = .fail .invalidType) ∧
  (∀ v : Word64, v.extractLsb' 52 11 = 0x7FF#11 → v.getLsbD 51 = false → v.extractLsb' 0 51 ≠ 0#51 →
    (Call.decode v).response = .fail .outOfRange) ∧
  (∀ v : Word64, v.extractLsb' 52 11 = 0x7FF#11 → v.getLsbD 51 = true →
    (Call.decode v).response = .ok ((v.extractLsb' 63 1 ++ v.extractLsb' 0 51 : BitVec 52).setWidth 64))

/-! ### Runs -/

/-- The registers stay coherent: from every state in which they are, a step leaves them so (R26, R172, and the values
R84 and R105 give SCRATCH and RESULT). -/
def Obligations.StepKeepsRegistersCoherent : Prop :=
  ∀ s t : State, RegistersCoherent s → step s = .next t → RegistersCoherent t

/-- The registers are coherent after reset. -/
def Obligations.ResetIsCoherent : Prop := RegistersCoherent State.reset

/-- R172: from any state at all, one in which STATUS reads 0b11 included, the first reset edge or command makes the
registers coherent, and that command gives the right response. -/
def Obligations.FirstResetOrCommandMakesCoherent : Prop :=
  ∀ (s t : State) (p : Pins) (ps : List Pins), s.pending = p :: ps → (p.rst = true ∨ p.cmdValid = true) →
    step s = .next t → RegistersCoherent t ∧ t.response = p.response

/-- R13: the observation of a run is the list of the responses of the commands presented, each a function of its
command alone; reset edges (also those that present a command) and idle edges give none. It holds from every state and
for every list of edges. -/
def Obligations.ObservationOfARun : Prop :=
  ∀ s : State, observe s.pending.length s = s.pending.filterMap Pins.response

/-- R31: nothing the host sees depends on what SCRATCH held: from two states that differ in SCRATCH alone, every edge
gives the same outputs, and every run the same observation. (Both sides take the same draws: log 3.) -/
def Obligations.ScratchIsHidden : Prop :=
  (∀ s t : State, SameButScratch s t →
    ∃ s' t', step s = .next s' ∧ step t = .next t' ∧ s'.outputs = t'.outputs ∧ SameButScratch s' t') ∧
  (∀ (k : Nat) (s t : State), SameButScratch s t → observe k s = observe k t)

/-- R180: a run takes one step for each edge, whatever the operands: k steps from any state go through and leave the
edges after the first k. -/
def Obligations.OneStepPerEdge : Prop :=
  ∀ (k : Nat) (s : State), ∃ t, core.run k s = .next t ∧ State.pending t = s.pending.drop k

/-- R177: over any number of idle edges RESULT and STATUS persist, and DONE is 0. -/
def Obligations.ResponsePersistsOverIdleEdges : Prop :=
  ∀ (k : Nat) (s : State) (ps qs : List Pins), s.pending = ps ++ qs → ps.length = k + 1 →
    (∀ p ∈ ps, p.rst = false ∧ p.cmdValid = false) →
    core.run (k + 1) s = .next { s with done := false, pending := qs }

/-! ### Notation and views -/

/-- R68 and R69: the edge each of the eight line forms stands for. An integer line in the 64-bit range presents ENCODE
of that very integer; a line with 1 to 16 hexadecimal digits presents the operand whose hexadecimal digits they are,
the last the least significant, zeros on the left, as ENCODE, ENCODE.NAI or DECODE, and as `op = 1, nai = 1` for
`DECODE.T`, which runs as DECODE; `ENCODE.NAI` alone is `ENCODE.NAI 0x0`; IDLE presents no command and RESET drives
`rst`. Any other operand assembles to nothing. -/
def Obligations.AssemblerLines : Prop :=
  (∀ id : Int, -(2 ^ 63) ≤ id → id < 2 ^ 63 →
    ∃ p opnd, (AsmLine.encodeInt id).assemble = some p ∧ p.rst = false ∧ p.cmdValid = true ∧
      p.commandWord = 0b00#2 ++ opnd ∧ decodeWord p.commandWord = .encode opnd ∧ opnd.toInt = id) ∧
  (∀ id : Int, id < -(2 ^ 63) ∨ 2 ^ 63 ≤ id → (AsmLine.encodeInt id).assemble = none) ∧
  (∀ digits : List (BitVec 4), 1 ≤ digits.length → digits.length ≤ 16 →
    ∃ (opnd : Word64) (e n d t : Pins),
      (∀ k, k < 16 → opnd.extractLsb' (4 * k) 4 = digits.reverse.getD k 0#4) ∧
      (AsmLine.encodeHex digits).assemble = some e ∧ (AsmLine.encodeNaiHex digits).assemble = some n ∧
      (AsmLine.decodeHex digits).assemble = some d ∧ (AsmLine.decodeTagged digits).assemble = some t ∧
      (∀ p ∈ [e, n, d, t], p.rst = false ∧ p.cmdValid = true) ∧
      e.commandWord = 0b00#2 ++ opnd ∧ decodeWord e.commandWord = .encode opnd ∧
      n.commandWord = 0b01#2 ++ opnd ∧ decodeWord n.commandWord = .encodeNai ∧
      d.commandWord = 0b10#2 ++ opnd ∧ decodeWord d.commandWord = .decode opnd ∧
      t.commandWord = 0b11#2 ++ opnd ∧ decodeWord t.commandWord = .decode opnd) ∧
  (∀ digits : List (BitVec 4), digits.length = 0 ∨ 16 < digits.length →
    (AsmLine.encodeHex digits).assemble = none ∧ (AsmLine.encodeNaiHex digits).assemble = none ∧
    (AsmLine.decodeHex digits).assemble = none ∧ (AsmLine.decodeTagged digits).assemble = none) ∧
  (∃ p, AsmLine.encodeNai.assemble = some p ∧ (AsmLine.encodeNaiHex [0#4]).assemble = some p ∧
    p.rst = false ∧ p.cmdValid = true ∧ p.commandWord = 0b01#2 ++ 0#64) ∧
  (∃ p, AsmLine.idle.assemble = some p ∧ p.rst = false ∧ p.cmdValid = false) ∧
  (∃ p, AsmLine.reset.assemble = some p ∧ p.rst = true)

/-- R68: the text of a value, as a response shows it in 16 hexadecimal digits, is read back where it is the operand of
a DECODE line: the line assembles to the very edge that presents DECODE of that value, `rst` 0 and `cmd_valid` 1
included. (The reading goes through the model's choices of separators and of digits of either case: log 10. The `->` of
a listing is no part of the line: log 11.) -/
def Obligations.ResponseTextIsReadBack : Prop :=
  ∀ v : Word64,
    (Response.ok v).text = ['O', 'K', ' ', '0', 'x'] ++ hex64 v ∧
    assembleLine (['D', 'E', 'C', 'O', 'D', 'E', ' ', '0', 'x'] ++ hex64 v) = some (Pins.command (0b10#2 ++ v)) ∧
    (Pins.command (0b10#2 ++ v)).rst = false ∧ (Pins.command (0b10#2 ++ v)).cmdValid = true ∧
    decodeWord (Pins.command (0b10#2 ++ v)).commandWord = .decode v

/-- R41: SCRATCH as 8 bytes in little-endian lanes: the low word is bytes 0 to 3, the high word bytes 4 to 7. -/
def Obligations.ScratchBytes : Prop :=
  ∀ s : State,
    s.scratch.extractLsb' 0 32 =
      s.scratchByte 3 ++ (s.scratchByte 2 ++ (s.scratchByte 1 ++ s.scratchByte 0 : BitVec 16) : BitVec 24) ∧
    s.scratch.extractLsb' 32 32 =
      s.scratchByte 7 ++ (s.scratchByte 6 ++ (s.scratchByte 5 ++ s.scratchByte 4 : BitVec 16) : BitVec 24)
end

