-- ==== Sys2Proof/Laws/Assembler.lean ====
section
/-! SUPPORT. The digits of the assembler's text: what a hexadecimal operand holds, and that a written digit is read back
and ends no word (spec/30_encoding.md R68). -/

namespace Sys2Proof.Machine

/-- The number that hexadecimal digits write, most significant first. -/
theorem hexOperand_toNat (digits : List (BitVec 4)) :
    (hexOperand digits).toNat = digits.foldl (fun n d => 16 * n + d.toNat) 0 % 2 ^ 64 :=
  BitVec.toNat_ofNat _ _

/-- One more digit at the right: the number moves up by one digit. -/
theorem hexValue_concat (digits : List (BitVec 4)) (d : BitVec 4) :
    (digits ++ [d]).foldl (fun n d => 16 * n + d.toNat) 0 =
      16 * digits.foldl (fun n d => 16 * n + d.toNat) 0 + d.toNat := by
  simp

/-- A digit is read back from the character written for it. -/
@[simp] theorem hexDigit_hexChar (d : BitVec 4) : hexDigit (hexChar d) = some d := by
  revert d; decide

/-- A written digit is no separator. -/
@[simp] theorem isBlank_hexChar (d : BitVec 4) : isBlank (hexChar d) = false := by
  revert d; decide

/-- A written digit begins no comment. -/
@[simp] theorem hexChar_ne_semicolon (d : BitVec 4) : hexChar d ≠ ';' := by
  revert d; decide

/-- Written digits are read back. -/
@[simp] theorem digitsOf_map_hexChar (ds : List (BitVec 4)) : digitsOf hexDigit (ds.map hexChar) = some ds := by
  induction ds with
  | nil => rfl
  | cons d ds ih => simp [digitsOf, ih]

/-- A line without a comment is left as it is. -/
theorem stripComment_of_not_mem {cs : List Char} (h : ';' ∉ cs) : stripComment cs = cs := by
  induction cs with
  | nil => rfl
  | cons c cs ih =>
    have hc : ¬ c = ';' := fun e => h (by simp [e])
    rw [stripComment, if_neg hc, ih (fun m => h (List.mem_cons_of_mem _ m))]

/-- Characters that are no separators stand in one word. -/
theorem splitAtBlanks_of_no_blank {cs : List Char} (h : ∀ c ∈ cs, isBlank c = false) : splitAtBlanks cs = [cs] := by
  induction cs with
  | nil => rfl
  | cons c cs ih =>
    have hc := h c List.mem_cons_self
    simp [splitAtBlanks, ih (fun d m => h d (List.mem_cons_of_mem _ m)), hc]

end Sys2Proof.Machine
end

