-- ==== Sys2Proof/Laws/Decode.lean ====
section
/-! SUPPORT. The fields of a command word, read from the word an encoder or the pins make. -/

namespace Sys2Proof

section Fields
variable (a b : Bool) (v : Word64)

theorem opField_fields : opField (BitVec.ofBool a ++ (BitVec.ofBool b ++ v : BitVec 65)) = a := by
  simp only [opField, BitVec.getLsbD_append, BitVec.getLsbD_ofBool]; simp

theorem naiField_fields : naiField (BitVec.ofBool a ++ (BitVec.ofBool b ++ v : BitVec 65)) = b := by
  simp only [naiField, BitVec.getLsbD_append, BitVec.getLsbD_ofBool]; simp

theorem opndField_fields : opndField (BitVec.ofBool a ++ (BitVec.ofBool b ++ v : BitVec 65)) = v := by
  apply BitVec.eq_of_getLsbD_eq
  intro i hi
  have : i < 65 := by omega
  simp only [opndField, BitVec.getLsbD_extractLsb', BitVec.getLsbD_append, Nat.zero_add, hi, this]; simp

end Fields

/-- A command word is its three fields (spec/30_encoding.md R61). -/
theorem commandWord_eq_fields (cw : CommandWord) :
    (BitVec.ofBool (opField cw) ++ (BitVec.ofBool (naiField cw) ++ opndField cw : BitVec 65) : CommandWord) = cw := by
  apply BitVec.eq_of_getLsbD_eq
  intro i hi
  simp only [BitVec.getLsbD_append, BitVec.getLsbD_ofBool, opField, naiField, opndField,
    BitVec.getLsbD_extractLsb', Nat.zero_add]
  by_cases h1 : i < 64
  · rw [if_pos (by omega), if_pos h1]; simp [h1]
  · by_cases h2 : i < 65
    · obtain rfl : i = 64 := by omega
      simp
    · obtain rfl : i = 65 := by omega
      simp

/-- The decoder on the three fields of the pins. -/
theorem decodeWord_fields (a b : Bool) (v : Word64) :
    decodeWord (BitVec.ofBool a ++ (BitVec.ofBool b ++ v : BitVec 65)) =
      if a then .decode v else if b then .encodeNai else .encode v := by
  rw [decodeWord, opField_fields, naiField_fields, opndField_fields]

/-- A bit of the top two of a word written as those two and the operand. -/
theorem getLsbD_top (top : BitVec 2) (v : Word64) (k : Nat) :
    (top ++ v : CommandWord).getLsbD (64 + k) = top.getLsbD k := by
  simp only [BitVec.getLsbD_append]
  rw [if_neg (by omega), Nat.add_sub_cancel_left]

/-- The operand of a word so written. -/
theorem opndField_top (top : BitVec 2) (v : Word64) : opndField (top ++ v) = v := by
  apply BitVec.eq_of_getLsbD_eq
  intro i hi
  simp only [opndField, BitVec.getLsbD_extractLsb', BitVec.getLsbD_append, Nat.zero_add, hi]; simp

/-- The decoder on a word so written. -/
theorem decodeWord_top (top : BitVec 2) (v : Word64) :
    decodeWord (top ++ v) =
      if top.getLsbD 1 then .decode v else if top.getLsbD 0 then .encodeNai else .encode v := by
  rw [decodeWord, opField, naiField, opndField_top, getLsbD_top top v 1, getLsbD_top top v 0]

namespace Machine

/-- The pins that present a command word carry that word. -/
@[simp] theorem Pins.commandWord_command (cw : CommandWord) : (Pins.command cw).commandWord = cw :=
  commandWord_eq_fields cw

@[simp] theorem Pins.command_rst (cw : CommandWord) : (Pins.command cw).rst = false := rfl
@[simp] theorem Pins.command_cmdValid (cw : CommandWord) : (Pins.command cw).cmdValid = true := rfl

/-- The command the pins present, by their fields. -/
theorem Pins.decodeWord_commandWord (p : Pins) :
    decodeWord p.commandWord =
      if p.cmdOp then .decode p.cmdOpnd else if p.cmdNai then .encodeNai else .encode p.cmdOpnd :=
  decodeWord_fields _ _ _

end Machine
end Sys2Proof
end

