-- ==== Sys2Proof/Laws/Operands.lean ====
section
/-! SUPPORT. The bit moves of both commands, bit by bit, and the tests on an operand as statements about its bits. -/

namespace Sys2Proof.Machine

theorem maskExpQ_getLsbD {i : Nat} (hi : i < 32) : maskExpQ.getLsbD i = decide (19 ≤ i ∧ i < 31) := by
  revert i; decide

theorem maskH19_getLsbD {i : Nat} (hi : i < 32) : maskH19.getLsbD i = decide (i < 19) := by
  revert i; decide

theorem maskB19_getLsbD {i : Nat} (hi : i < 32) : maskB19.getLsbD i = decide (i = 19) := by
  revert i; decide

/-- The high word bit by bit (spec/40_encode.md R83): `W[18:0] = H[18:0]`, `W[30:19]` all ones, `W[31] = H[19]`. -/
theorem assembleHighWord_getLsbD (h : HighPart) {i : Nat} (hi : i < 32) :
    (assembleHighWord h).getLsbD i =
      if i < 19 then h.getLsbD i else if i < 31 then true else h.getLsbD 19 := by
  have e := maskExpQ_getLsbD hi
  have m := maskH19_getLsbD hi
  have b := maskB19_getLsbD (show i - 12 < 32 by omega)
  simp only [assembleHighWord, BitVec.getLsbD_or, BitVec.getLsbD_and, BitVec.getLsbD_shiftLeft,
    BitVec.getLsbD_setWidth, signShift, e, m, b]
  by_cases h1 : i < 19
  · have : ¬ i - 12 = 19 := by omega
    have a : ¬ (19 ≤ i ∧ i < 31) := by omega
    simp [h1, hi, this, a]
  · by_cases h2 : i < 31
    · simp [h1, h2]; omega
    · obtain rfl : i = 31 := by omega
      simp

/-- The encoded value bit by bit (spec/30_encoding.md R65). -/
theorem encodedValue_getLsbD (opnd : Word64) {i : Nat} (hi : i < 64) :
    (encodedValue opnd).getLsbD i =
      if i < 51 then opnd.getLsbD i else if i < 63 then true else opnd.getLsbD 51 := by
  simp only [encodedValue, BitVec.getLsbD_append, lowWord, highPart]
  by_cases h0 : i < 32
  · have : i < 51 := by omega
    simp [h0, this]
  · rw [if_neg h0, assembleHighWord_getLsbD _ (by omega)]
    simp only [BitVec.getLsbD_extractLsb']
    by_cases h1 : i < 51
    · have a : i - 32 < 19 := by omega
      have c : i - 32 < 20 := by omega
      have d : 32 + (i - 32) = i := by omega
      simp [h1, a, c, d]
    · by_cases h2 : i < 63
      · have a : ¬ i - 32 < 19 := by omega
        have c : i - 32 < 31 := by omega
        simp [h1, h2, a, c]
      · have a : ¬ i - 32 < 19 := by omega
        have c : ¬ i - 32 < 31 := by omega
        simp [h1, h2, a, c]

/-- The reconstructed high part bit by bit (spec/41_decode.md R104): `H[18:0] = W[18:0]`, `H[19] = W[31]`. -/
theorem reconstructHighPart_getLsbD (w : Word32) {i : Nat} (hi : i < 20) :
    (reconstructHighPart w).getLsbD i = if i < 19 then w.getLsbD i else w.getLsbD 31 := by
  have m := maskH19_getLsbD (show i < 32 by omega)
  have b := maskB19_getLsbD (show i < 32 by omega)
  simp only [reconstructHighPart, BitVec.getLsbD_setWidth, BitVec.getLsbD_or, BitVec.getLsbD_and,
    BitVec.getLsbD_ushiftRight, signShift, m, b]
  by_cases h1 : i < 19
  · have : ¬ i = 19 := by omega
    simp [h1, hi, this]
  · obtain rfl : i = 19 := by omega
    simp

/-- The decoded identifier bit by bit: `id = v[63] : v[50:0]` (R104). -/
theorem decodedIdentifier_getLsbD (v : Word64) {i : Nat} (hi : i < 52) :
    (decodedIdentifier v).getLsbD i = if i < 51 then v.getLsbD i else v.getLsbD 63 := by
  simp only [decodedIdentifier, BitVec.getLsbD_append, lowWord, highWord]
  by_cases h0 : i < 32
  · have : i < 51 := by omega
    simp [h0, this]
  · rw [if_neg h0, reconstructHighPart_getLsbD _ (by omega)]
    simp only [BitVec.getLsbD_extractLsb']
    by_cases h1 : i < 51
    · have a : i - 32 < 19 := by omega
      have c : i - 32 < 32 := by omega
      have d : 32 + (i - 32) = i := by omega
      simp [h1, a, c, d]
    · have a : ¬ i - 32 < 19 := by omega
      simp [h1, a]

/-- What `DECODE` delivers, bit by bit: the identifier, and zeros above bit 51. -/
theorem decodedResult_getLsbD (v : Word64) {i : Nat} (hi : i < 64) :
    (decodedResult v).getLsbD i = if i < 51 then v.getLsbD i else if i = 51 then v.getLsbD 63 else false := by
  simp only [decodedResult, BitVec.getLsbD_setWidth, hi, decide_true, Bool.true_and]
  by_cases h : i < 52
  · rw [decodedIdentifier_getLsbD _ h]
    by_cases h1 : i < 51
    · simp [h1]
    · have : i = 51 := by omega
      simp [this]
  · have a : ¬ i < 51 := by omega
    have c : ¬ i = 51 := by omega
    simp only [a, c, if_false]
    exact BitVec.getLsbD_of_ge _ _ (by omega)

/-- The one-line layout bit by bit. -/
theorem layoutOf_getLsbD (id : Ident) {i : Nat} (hi : i < 64) :
    (layoutOf id).getLsbD i = if i < 51 then id.getLsbD i else if i < 63 then true else id.getLsbD 51 := by
  have ones : ∀ j < 11, (0x7FF#11).getLsbD j = true := by decide
  simp only [layoutOf, BitVec.getLsbD_append, BitVec.getLsbD_extractLsb', Nat.zero_add]
  by_cases h1 : i < 51
  · rw [if_pos (by omega), if_pos (by omega), if_pos h1, if_pos h1]
    simp [h1]
  · by_cases h2 : i < 63
    · rw [if_pos (by omega), if_neg h1, if_neg h1, if_pos h2]
      by_cases h3 : i < 52
      · obtain rfl : i = 51 := by omega
        rfl
      · rw [if_neg (by omega), ones _ (by omega)]
    · obtain rfl : i = 63 := by omega
      simp

/-- The inverse layout bit by bit. -/
theorem identOf_getLsbD (v : Word64) {i : Nat} (hi : i < 52) :
    (identOf v).getLsbD i = if i < 51 then v.getLsbD i else v.getLsbD 63 := by
  simp only [identOf, BitVec.getLsbD_append, BitVec.getLsbD_extractLsb']
  by_cases h1 : i < 51
  · simp [h1]
  · obtain rfl : i = 51 := by omega
    simp

/-- A field is all zeros when its bits are. -/
theorem extractLsb'_eq_zero_iff {n : Nat} (v : BitVec n) (lo w : Nat) :
    v.extractLsb' lo w = 0#w ↔ ∀ i < w, v.getLsbD (lo + i) = false := by
  constructor
  · intro h i hi
    have := congrArg (fun x => x.getLsbD i) h
    simpa [hi] using this
  · intro h
    apply BitVec.eq_of_getLsbD_eq
    intro i hi
    simp [hi, h i hi]

/-- The exponent field is all ones when its bits are. -/
theorem exponentField_eq_iff (v : Word64) :
    v.extractLsb' 52 11 = 0x7FF#11 ↔ ∀ i < 11, v.getLsbD (52 + i) = true := by
  have ones : ∀ i < 11, (0x7FF#11).getLsbD i = true := by decide
  constructor
  · intro h i hi
    have := congrArg (fun x => x.getLsbD i) h
    simp only [BitVec.getLsbD_extractLsb', hi, decide_true, Bool.true_and, ones i hi] at this
    exact this
  · intro h
    apply BitVec.eq_of_getLsbD_eq
    intro i hi
    rw [BitVec.getLsbD_extractLsb', h i hi, ones i hi]
    simp [hi]

/-- The mask test of decode is exponent all ones AND quiet bit set (spec/41_decode.md R103). -/
theorem maskCheck_iff (v : Word64) : maskCheck v = true ↔ QuietPattern v := by
  rw [maskCheck, beq_iff_eq, QuietPattern, exponentField_eq_iff]
  constructor
  · intro h
    have bit : ∀ i, 19 ≤ i → i < 31 → v.getLsbD (32 + i) = true := by
      intro i h1 h2
      have e := maskExpQ_getLsbD (show i < 32 by omega)
      have := congrArg (fun x => x.getLsbD i) h
      simp only [BitVec.getLsbD_and, highWord, BitVec.getLsbD_extractLsb', e] at this
      have : i < 32 := by omega
      simp_all
    refine ⟨fun i hi => ?_, bit 19 (by omega) (by omega)⟩
    have := bit (20 + i) (by omega) (by omega)
    rwa [show 32 + (20 + i) = 52 + i by omega] at this
  · rintro ⟨h, q⟩
    apply BitVec.eq_of_getLsbD_eq
    intro i hi
    have e := maskExpQ_getLsbD hi
    simp only [BitVec.getLsbD_and, highWord, BitVec.getLsbD_extractLsb', e, hi, decide_true, Bool.true_and]
    by_cases r : 19 ≤ i ∧ i < 31
    · by_cases h19 : i = 19
      · subst h19; simp [q]
      · have := h (i - 20) (by omega)
        rw [show 52 + (i - 20) = 32 + i by omega] at this
        simp [this]
    · simp [r]

/-- A quiet-NaN pattern is a NaN (spec/42_laws.md R122). -/
theorem isNaN64_of_quietPattern {v : Word64} (h : QuietPattern v) : isNaN64 v = true := by
  obtain ⟨e, q⟩ := h
  have m : mantissaField v ≠ 0#52 := by
    intro z
    have := (extractLsb'_eq_zero_iff v 0 52).1 z 51 (by omega)
    rw [Nat.zero_add, q] at this
    exact Bool.noConfusion this
  simp [isNaN64, exponentField, expAllOnes, e, m]

/-- The range check of encode as a bit test (spec/40_encode.md R81). -/
theorem identifierInRange_iff (opnd : Word64) : identifierInRange opnd = true ↔ ValidIdentifier opnd := by
  have small : ValidIdentifier opnd ↔ opnd.toNat < 2 ^ 52 := by
    rw [ValidIdentifier, ← BitVec.toNat_inj]
    have := opnd.isLt
    simp only [BitVec.extractLsb'_toNat, Nat.shiftRight_eq_div_pow, BitVec.toNat_ofNat]
    omega
  rw [small, identifierInRange, decide_eq_true_iff, identifierOf, BitVec.toInt_eq_toNat_cond, idMax]
  have := opnd.isLt
  split <;> omega

/-- An encoded value is a quiet-NaN pattern (spec/42_laws.md R122). -/
theorem encodedValue_quietPattern (opnd : Word64) : QuietPattern (encodedValue opnd) := by
  refine ⟨(exponentField_eq_iff _).2 fun i hi => ?_, ?_⟩
  · rw [encodedValue_getLsbD _ (by omega)]
    have a : ¬ 52 + i < 51 := by omega
    have b : 52 + i < 63 := by omega
    simp [a, b]
  · rw [encodedValue_getLsbD _ (by omega)]; simp

end Sys2Proof.Machine
end

