-- ==== Sys2Proof/Laws/PerInstr.lean ====
section
/-! SUPPORT. Families of statements over all commands as syntax, one lemma per constructor. -/

namespace Sys2Proof.Laws.TableRow

/-- The encoder gives a command a canonical word (spec/30_encoding.md R71) that its own row of the opcode map covers
(R63). -/
def Statement (i : Instr) : Prop :=
  canonicalWord (encodeWord i) = true ∧
    ∃ row ∈ opcodeMap, row.mnemonic = i.mnemonic ∧ row.covers (encodeWord i) = true

/-- A mask that keeps only bits of the top two. -/
theorem top_and_mask (top mask : BitVec 2) (v : Word64) :
    (top ++ v : CommandWord) &&& (mask ++ 0#64) = (top &&& mask) ++ 0#64 := by
  apply BitVec.eq_of_getLsbD_eq
  intro i hi
  simp only [BitVec.getLsbD_and, BitVec.getLsbD_append]
  by_cases h : i < 64 <;> simp [h]

theorem encode (opnd : Word64) : Statement (.encode opnd) := by
  refine ⟨by rw [canonicalWord, encodeWord, getLsbD_top 0b00#2 opnd 1, getLsbD_top 0b00#2 opnd 0]; rfl, _, List.mem_cons_self, rfl, ?_⟩
  exact beq_iff_eq.2 (top_and_mask 0b00#2 0b11#2 opnd)

theorem encodeNai : Statement .encodeNai := by
  refine ⟨by decide, _, List.mem_cons_of_mem _ List.mem_cons_self, rfl, by decide⟩

theorem decode (opnd : Word64) : Statement (.decode opnd) := by
  refine ⟨by rw [canonicalWord, encodeWord, getLsbD_top 0b10#2 opnd 1, getLsbD_top 0b10#2 opnd 0]; rfl, _,
    List.mem_cons_of_mem _ (List.mem_cons_of_mem _ List.mem_cons_self), rfl, ?_⟩
  exact beq_iff_eq.2 (top_and_mask 0b10#2 0b10#2 opnd)

end Sys2Proof.Laws.TableRow
end

