-- ==== Sys2Proof/Laws/State.lean ====
section
/-! SUPPORT. One lemma per field per named update of the state, so that later proofs unfold no record update. -/

namespace Sys2Proof.Machine

section Succeed
variable (b r : Word64) (s : State)
@[simp] theorem State.succeed_scratch : (s.succeed b r).scratch = b := rfl
@[simp] theorem State.succeed_result : (s.succeed b r).result = r := rfl
@[simp] theorem State.succeed_status : (s.succeed b r).status = codeOk := rfl
@[simp] theorem State.succeed_done : (s.succeed b r).done = true := rfl
@[simp] theorem State.succeed_pending : (s.succeed b r).pending = s.pending := rfl
@[simp] theorem State.succeed_nextDraw : (s.succeed b r).nextDraw = s.nextDraw := rfl
end Succeed

section FailWith
variable (k : FailKind) (s : State)
@[simp] theorem State.failWith_scratch : (s.failWith k).scratch = Config.any64 s.nextDraw := rfl
@[simp] theorem State.failWith_result : (s.failWith k).result = Config.any64 (s.nextDraw + 1) := rfl
@[simp] theorem State.failWith_status : (s.failWith k).status = k.code := rfl
@[simp] theorem State.failWith_done : (s.failWith k).done = true := rfl
@[simp] theorem State.failWith_pending : (s.failWith k).pending = s.pending := rfl
@[simp] theorem State.failWith_nextDraw : (s.failWith k).nextDraw = s.nextDraw + 2 := rfl
end FailWith

section Edges
variable (s : State)
@[simp] theorem State.resetEdge_scratch : s.resetEdge.scratch = Config.any64 s.nextDraw := rfl
@[simp] theorem State.resetEdge_result : s.resetEdge.result = Config.any64 (s.nextDraw + 1) := rfl
@[simp] theorem State.resetEdge_status : s.resetEdge.status = codeOk := rfl
@[simp] theorem State.resetEdge_done : s.resetEdge.done = false := rfl
@[simp] theorem State.resetEdge_pending : s.resetEdge.pending = s.pending := rfl
@[simp] theorem State.resetEdge_nextDraw : s.resetEdge.nextDraw = s.nextDraw + 2 := rfl
@[simp] theorem State.idleEdge_scratch : s.idleEdge.scratch = s.scratch := rfl
@[simp] theorem State.idleEdge_result : s.idleEdge.result = s.result := rfl
@[simp] theorem State.idleEdge_status : s.idleEdge.status = s.status := rfl
@[simp] theorem State.idleEdge_done : s.idleEdge.done = false := rfl
@[simp] theorem State.idleEdge_pending : s.idleEdge.pending = s.pending := rfl
@[simp] theorem State.idleEdge_nextDraw : s.idleEdge.nextDraw = s.nextDraw := rfl
@[simp] theorem State.advance_scratch : s.advance.scratch = s.scratch := rfl
@[simp] theorem State.advance_result : s.advance.result = s.result := rfl
@[simp] theorem State.advance_status : s.advance.status = s.status := rfl
@[simp] theorem State.advance_done : s.advance.done = s.done := rfl
@[simp] theorem State.advance_pending : s.advance.pending = s.pending.tail := rfl
@[simp] theorem State.advance_nextDraw : s.advance.nextDraw = s.nextDraw := rfl
end Edges

section Inputs
variable (ps : List Pins) (nbits w : Nat) (s : State)
@[simp] theorem State.present_scratch : (s.present ps).scratch = s.scratch := rfl
@[simp] theorem State.present_result : (s.present ps).result = s.result := rfl
@[simp] theorem State.present_status : (s.present ps).status = s.status := rfl
@[simp] theorem State.present_done : (s.present ps).done = s.done := rfl
@[simp] theorem State.present_pending : (s.present ps).pending = s.pending ++ ps := rfl
@[simp] theorem State.present_nextDraw : (s.present ps).nextDraw = s.nextDraw := rfl
@[simp] theorem State.withFetchWord_nextPins :
    (s.withFetchWord nbits w).nextPins = Pins.command (BitVec.ofNat 66 (w % 2 ^ nbits)) := rfl
@[simp] theorem State.withFetchWord_advance : (s.withFetchWord nbits w).advance = s := rfl
end Inputs

/-- The pins of the next edge, where the host has some to drive. -/
theorem State.nextPins_of_pending {s : State} {p : Pins} {ps : List Pins} (h : s.pending = p :: ps) :
    s.nextPins = p := by simp [State.nextPins, h]

/-- The state with the next edge's pins taken, where the host has some to drive. -/
theorem State.advance_of_pending {s : State} {p : Pins} {ps : List Pins} (h : s.pending = p :: ps) :
    s.advance = { s with pending := ps } := by simp [State.advance, h]

end Sys2Proof.Machine
end

