-- ==== Sys2Proof/Laws/Step.lean ====
section
/-! SUPPORT. What each shared operation, each command and one step can do, said once. -/

namespace Sys2Proof.Machine

/-- A completed command either succeeded or failed. -/
theorem State.complete_cases (c : Completion) (s : State) :
    (∃ b r, c = .ok b r ∧ s.complete c = s.succeed b r) ∨ (∃ k, c = .fail k ∧ s.complete c = s.failWith k) := by
  cases c with
  | ok b r => exact .inl ⟨b, r, rfl, rfl⟩
  | fail k => exact .inr ⟨k, rfl, rfl⟩

@[simp] theorem State.complete_done (c : Completion) (s : State) : (s.complete c).done = true := by
  cases c <;> rfl

@[simp] theorem State.complete_pending (c : Completion) (s : State) : (s.complete c).pending = s.pending := by
  cases c <;> rfl

@[simp] theorem FailKind.code_ne_codeOk (k : FailKind) : k.code ≠ codeOk := by cases k <;> decide

@[simp] theorem failKindOfCode_code (k : FailKind) : failKindOfCode k.code = some k := by cases k <;> rfl

/-- The response on the ports right after a command is its transaction-level response (spec/10_state.md R28). -/
@[simp] theorem State.complete_response (c : Completion) (s : State) : (s.complete c).response = some c.response := by
  cases c with
  | ok b r => rfl
  | fail k => simp [State.response, State.outputs, Outputs.response, State.complete, Completion.response]

/-- How `ENCODE` ends, by whether its operand is an identifier (spec/40_encode.md R81, R84, R85). -/
theorem encodeCompletion_of_valid {opnd : Word64} (h : ValidIdentifier opnd) :
    encodeCompletion opnd = .ok (encodedValue opnd) (encodedValue opnd) := by
  rw [encodeCompletion, if_pos ((identifierInRange_iff opnd).2 h)]

theorem encodeCompletion_of_not_valid {opnd : Word64} (h : ¬ ValidIdentifier opnd) :
    encodeCompletion opnd = .fail .outOfRange := by
  rw [encodeCompletion, if_neg (fun c => h ((identifierInRange_iff opnd).1 c))]

/-- How `DECODE` ends, by the class of its operand (spec/41_decode.md R105). -/
theorem decodeCompletion_of_quiet {opnd : Word64} (h : QuietPattern opnd) :
    decodeCompletion opnd = .ok opnd (decodedResult opnd) := by
  rw [decodeCompletion, if_pos (isNaN64_of_quietPattern h), if_pos ((maskCheck_iff opnd).2 h)]

theorem decodeCompletion_of_not_nan {opnd : Word64} (h : isNaN64 opnd = false) :
    decodeCompletion opnd = .fail .invalidType := by simp [decodeCompletion, h]

theorem decodeCompletion_of_nan_not_quiet {opnd : Word64} (h : isNaN64 opnd = true) (q : ¬ QuietPattern opnd) :
    decodeCompletion opnd = .fail .outOfRange := by
  rw [decodeCompletion, if_pos h, if_neg (fun c => q ((maskCheck_iff opnd).1 c))]

/-- Every command answers a next state: the one its completion gives. -/
theorem exec_eq (i : Instr) (s : State) : exec i s = .next (s.complete (completionOf i)) := by
  cases i <;> rfl

/-- Everything one edge can do. -/
theorem clockEdge_eq (p : Pins) (s : State) :
    clockEdge p s = .next (if p.rst then s.resetEdge
      else if p.cmdValid then s.complete (completionOf (decodeWord p.commandWord)) else s.idleEdge) := by
  cases p with
  | mk r v o n d => cases r <;> cases v <;> simp [clockEdge, exec_eq]

/-- Inversion of a step: a reset, a command or an idle edge, on the pins taken. -/
theorem step_cases {s t : State} (h : step s = .next t) :
    (s.nextPins.rst = true ∧ t = s.advance.resetEdge) ∨
    (s.nextPins.rst = false ∧ s.nextPins.cmdValid = true ∧
      t = s.advance.complete (completionOf (decodeWord s.nextPins.commandWord))) ∨
    (s.nextPins.rst = false ∧ s.nextPins.cmdValid = false ∧ t = s.advance.idleEdge) := by
  rw [step, clockEdge_eq] at h
  have h := (Host.Outcome.next.inj h).symm
  cases hr : s.nextPins.rst <;> cases hv : s.nextPins.cmdValid <;> simp [hr, hv] at h <;> simp [h]

/-- A run of any machine goes on from the state its first step answers. -/
theorem run_succ_of_step (M : Host.Core) {s t : M.State} (h : M.step s = .next t) (k : Nat) :
    M.run (k + 1) s = M.run k t := by rw [Host.Core.run, h]

/-- A run of the codec goes on from the state its first step answers. -/
theorem core_run_succ {s t : State} (h : step s = .next t) (k : Nat) : core.run (k + 1) s = core.run k t :=
  run_succ_of_step core h k

end Sys2Proof.Machine
end

