-- ==== Sys2Proof/Tests/Slice0.lean ====
section
/-! SUPPORT. Tests, each one step or one decoding, with expected values from the spec's own tables
(spec/95_test_vectors.md, spec/40_encode.md R87, spec/41_decode.md R106), the smoke tests of the well-formedness checks,
and for each statement with hypotheses a witness that meets them. -/

namespace Sys2Proof.Machine.Tests

/-! ### Decoding: words written out from spec/30_encoding.md R61 and R63 -/

theorem test_word_encode : decodeTableWord 72 0x0000000000000007D = some (.encode 125#64) := by decide
theorem test_word_encode_minus_one :
    decodeTableWord 72 0x0FFFFFFFFFFFFFFFF = some (.encode (BitVec.ofInt 64 (-1))) := by decide
theorem test_word_encodeNai : decodeTableWord 72 0x13FF8000000000000 = some .encodeNai := by decide
theorem test_word_decode : decodeTableWord 72 0x27FF800000000007D = some (.decode 0x7FF800000000007D#64) := by decide
theorem test_word_decode_tagged :
    decodeTableWord 72 0x37FF800000000007D = some (.decode 0x7FF800000000007D#64) := by decide
theorem test_word_too_wide : decodeBits (2 ^ 66) = .error .bitsAboveTheCommandWord := by rfl

/-- The encoder's words, digit by digit (R71). -/
theorem test_encodeWord :
    encodeWord (.encode 7#64) = 0x00000000000000007#66 ∧ encodeWord .encodeNai = 0x10000000000000000#66 ∧
    encodeWord (.decode 0xFFFABCDE12345678#64) = 0x2FFFABCDE12345678#66 := by decide

/-! ### Smoke tests: an ill-formed term for each check -/

theorem test_noncanonical_decode : canonicalWord 0x37FF800000000007D#66 = false := by decide
theorem test_noncanonical_encodeNai : canonicalWord 0x1000000000000007D#66 = false := by decide
theorem test_canonical : canonicalWord 0x27FF800000000007D#66 = true := by decide
theorem test_asm_integer_too_large : (AsmLine.encodeInt (2 ^ 63)).wellFormed = false := by decide
theorem test_asm_integer_too_small : (AsmLine.encodeInt (-(2 ^ 63) - 1)).wellFormed = false := by decide
theorem test_asm_no_digits : (AsmLine.decodeHex []).wellFormed = false := by decide
theorem test_asm_seventeen_digits : (AsmLine.encodeNaiHex (List.replicate 17 1#4)).wellFormed = false := by decide

/-! ### One step per command: the tables of spec/95_test_vectors.md section 2 -/

/-- The response one step gives from reset with the word presented. -/
def responseTo (w : Nat) : Option Response :=
  match step (State.reset.withFetchWord 72 w) with
  | .next t => t.response
  | .fault _ => none
  | .refused _ => none

/-- Section 2.1. -/
theorem test_encode_success :
    [ (0x00000000000000000, 0x7FF8000000000000#64), (0x00000000000000001, 0x7FF8000000000001#64),
      (0x0000000000000007D, 0x7FF800000000007D#64), (0x00000000080000000, 0x7FF8000080000000#64),
      (0x00000000100000000, 0x7FF8000100000000#64), (0x00007FFFF00000000, 0x7FFFFFFF00000000#64),
      (0x00004000000000000, 0x7FFC000000000000#64), (0x00007FFFFFFFFFFFF, 0x7FFFFFFFFFFFFFFF#64),
      (0x00008000000000000, 0xFFF8000000000000#64), (0x0000FFFFFFFFFFFFF, 0xFFFFFFFFFFFFFFFF#64),
      (0x0000ABCDE12345678, 0xFFFABCDE12345678#64), (0x00005555555555555, 0x7FFD555555555555#64) ].all
      (fun r => responseTo r.1 == some (.ok r.2)) = true := by decide

/-- Section 2.2. -/
theorem test_encode_out_of_range :
    [ 0x00010000000000000, 0x00020000000000000, 0x04000000000000000, 0x07FFFFFFFFFFFFFFF, 0x0FFFFFFFFFFFFFFFF,
      0x0FFFFFFFFFFFFFF83, 0x08000000000000000, 0x0FFF8000000000000, 0x07FF8000000000000 ].all
      (fun w => responseTo w == some (.fail .outOfRange)) = true := by decide

/-- Section 2.3. -/
theorem test_encodeNai :
    [ 0x10000000000000000, 0x1000000000000007D, 0x13FF8000000000000, 0x1FFFFFFFFFFFFFFFF, 0x10010000000000000 ].all
      (fun w => responseTo w == some (.fail .invalidType)) = true := by decide

/-- Sections 2.4 and 2.5. -/
theorem test_decode_failures :
    [ 0x20000000000000000, 0x28000000000000000, 0x2000FFFFFFFFFFFFF, 0x23FF8000000000000, 0x27FEFFFFFFFFFFFFF,
      0x27FF0000000000000, 0x2FFF0000000000000, 0x27FE8000000000000, 0x33FF8000000000000 ].all
      (fun w => responseTo w == some (.fail .invalidType)) = true ∧
    [ 0x27FF0000000000001, 0x27FF4000000000000, 0x27FF7FFFFFFFFFFFF, 0x2FFF0000000000001, 0x2FFF7FFFFFFFFFFFF,
      0x27FF00000FFFFFFFF, 0x27FF0000100000000, 0x37FF0000000000001 ].all
      (fun w => responseTo w == some (.fail .outOfRange)) = true := by decide

/-- Sections 2.6 and 2.7. -/
theorem test_decode_success :
    [ (0x27FF8000000000000, 0x0000000000000000#64), (0x27FF800000000007D, 0x000000000000007D#64),
      (0x27FF80000FFFFFFFF, 0x00000000FFFFFFFF#64), (0x27FF8000100000000, 0x0000000100000000#64),
      (0x27FFC000000000000, 0x0004000000000000#64), (0x27FFFFFFFFFFFFFFF, 0x0007FFFFFFFFFFFF#64),
      (0x2FFF8000000000000, 0x0008000000000000#64), (0x2FFFABCDE12345678, 0x000ABCDE12345678#64),
      (0x2FFFFFFFFFFFFFFFF, 0x000FFFFFFFFFFFFF#64), (0x37FF800000000007D, 0x000000000000007D#64) ].all
      (fun r => responseTo r.1 == some (.ok r.2)) = true := by decide

/-! ### Notation (spec/30_encoding.md R68, R69) -/

theorem test_assemble_integer :
    (assembleLine ['E', 'N', 'C', 'O', 'D', 'E', ' ', '-', '1', ' ', ';', ' ', 'x']).map Pins.commandWord =
      some 0x0FFFFFFFFFFFFFFFF#66 := by decide
theorem test_assemble_tagged :
    (assembleLine ['D', 'E', 'C', 'O', 'D', 'E', '.', 'T', ' ', '0', 'x', '7', 'D']).map Pins.commandWord =
      some 0x3000000000000007D#66 := by decide
theorem test_assemble_hex_needs_prefix :
    assembleLine ['D', 'E', 'C', 'O', 'D', 'E', ' ', '1', '2', '5'] = none := by decide
theorem test_response_text :
    (Response.ok 0x7FF800000000007D#64).text =
      ['O', 'K', ' ', '0', 'x', '7', 'F', 'F', '8', '0', '0', '0', '0', '0', '0', '0', '0', '0', '0', '7', 'D'] := by
  decide

/-! ### Witnesses: the hypotheses of each statement can be met -/

/-- A state with the pins given still to come, its other fields those of a state before the first reset. -/
def demo (ps : List Pins) : State := ⟨0#64, 0#64, 0b11#2, true, ps, 0⟩

theorem witness_StepRunsPresentedCommand :
    (demo [Pins.command 0x0000000000000007D#66]).pending = [Pins.command 0x0000000000000007D#66] ∧
    (Pins.command 0x0000000000000007D#66).rst = false ∧ (Pins.command 0x0000000000000007D#66).cmdValid = true ∧
    decodeTableWord 72 0x10000000000000000 = some .encodeNai := by decide

theorem witness_ResetEdgeWins :
    (demo [⟨true, true, false, false, 125#64⟩]).pending = ⟨true, true, false, false, 125#64⟩ :: [] ∧
    (⟨true, true, false, false, 125#64⟩ : Pins).rst = true := by decide

theorem witness_IdleEdgeHoldsRegisters :
    (demo [⟨false, false, true, true, 125#64⟩]).pending = ⟨false, false, true, true, 125#64⟩ :: [] := by decide

theorem witness_DoneFollowsCmdValid :
    (demo [Pins.idle]).pending = Pins.idle :: [] ∧ Pins.idle.rst = false ∧
    (demo [Pins.command 0#66]).pending = Pins.command 0#66 :: [] ∧ (Pins.command 0#66).rst = false ∧
    (Pins.command 0#66).cmdValid = true := by decide

theorem witness_NoMoreEdgesIsIdle : (demo []).pending = [] := rfl

theorem witness_EncodeRangeCheck_boundaries :
    0 ≤ (0#64).toInt ∧ (0x000FFFFFFFFFFFFF#64).toInt = 4503599627370495 ∧
    (0x0010000000000000#64).toInt > 4503599627370495 ∧ (0xFFFFFFFFFFFFFFFF#64).toInt < 0 := by decide

theorem witness_EncodeSuccess : (0x000FFFFFFFFFFFFF#64).extractLsb' 52 12 = 0#12 := by decide
theorem witness_EncodeHighWord : (0x0008000000000000#64).extractLsb' 52 12 = 0#12 := by decide
theorem witness_RoundTrip : (0x0007FFFFFFFFFFFF#64).extractLsb' 52 12 = 0#12 := by decide
theorem witness_EncodeFailure :
    (0x0010000000000000#64).extractLsb' 52 12 ≠ 0#12 ∧ (0x8000000000000000#64).toInt < 0 ∧
    (0x7FFFFFFFFFFFFFFF#64).toInt > 4503599627370495 := by decide

theorem witness_DecodeNotNaN :
    (0x7FE8000000000000#64).extractLsb' 52 11 ≠ 0x7FF#11 ∧ (0xFFF0000000000000#64).extractLsb' 0 52 = 0#52 := by decide

theorem witness_DecodeMaskCheck :
    (0x7FF0000000000001#64).extractLsb' 52 11 = 0x7FF#11 ∧ (0x7FF0000000000001#64).extractLsb' 0 52 ≠ 0#52 ∧
    (0x7FF0000000000001#64).getLsbD 51 = false ∧
    (0x7FF8000000000000#64).extractLsb' 52 11 = 0x7FF#11 ∧ (0x7FF8000000000000#64).extractLsb' 0 52 ≠ 0#52 ∧
    (0x7FF8000000000000#64).getLsbD 51 = true := by decide

theorem witness_DecodeSuccess :
    (0xFFF8000000000000#64).extractLsb' 52 11 = 0x7FF#11 ∧ (0xFFF8000000000000#64).getLsbD 51 = true := by decide

/-- A boundary value for each clause of `DecodeByClass` and of `OutcomeTable`. -/
theorem witness_DecodeByClass :
    (0x7FEFFFFFFFFFFFFF#64).extractLsb' 52 11 ≠ 0x7FF#11 ∧
    ((0x7FF0000000000000#64).extractLsb' 52 11 = 0x7FF#11 ∧ (0x7FF0000000000000#64).extractLsb' 0 52 = 0#52) ∧
    ((0xFFF7FFFFFFFFFFFF#64).extractLsb' 52 11 = 0x7FF#11 ∧ (0xFFF7FFFFFFFFFFFF#64).getLsbD 51 = false ∧
      (0xFFF7FFFFFFFFFFFF#64).extractLsb' 0 51 ≠ 0#51) ∧
    ((0xFFF8000000000000#64).extractLsb' 52 11 = 0x7FF#11 ∧ (0xFFF8000000000000#64).getLsbD 51 = true) := by decide

theorem witness_OutcomeTable :
    (0x000FFFFFFFFFFFFF#64).extractLsb' 52 12 = 0#12 ∧ (0x0010000000000000#64).extractLsb' 52 12 ≠ 0#12 ∧
    (0x7FF0000000000001#64).extractLsb' 0 51 ≠ 0#51 := by decide

theorem witness_RegisterViewIsTheResponse :
    transact (.encode 0#64) = .ok 0x7FF8000000000000#64 ∧ transact .encodeNai = .fail .invalidType ∧
    transact (.decode 0x7FF0000000000001#64) = .fail .outOfRange := by decide

/-- Every command answers a next state from every state: the hypothesis of `InvalidTypeRaisedBy`,
`OutOfRangeRaisedBy` and `CommandFrame`. -/
theorem witness_InvalidTypeRaisedBy : ∃ t, exec .encodeNai (demo []) = .next t ∧ t.status = 0b01#2 := ⟨_, rfl, rfl⟩
theorem witness_OutOfRangeRaisedBy :
    ∃ t, exec (.encode 0x0010000000000000#64) (demo []) = .next t ∧ t.status = 0b10#2 := ⟨_, exec_eq _ _, by decide⟩
theorem witness_CommandFrame :
    ∃ t, exec (.decode 0x7FF8000000000000#64) (demo [Pins.idle]) = .next t ∧ t.status = 0b00#2 :=
  ⟨_, exec_eq _ _, by decide⟩
theorem witness_FailureEntry : transact (.encode (BitVec.ofInt 64 (-1))) = .fail .outOfRange := by decide
theorem witness_DrawsAreFreshStreamEntries :
    transact .encodeNai = .fail .invalidType ∧ (demo [Pins.reset]).pending = Pins.reset :: [] ∧
    Pins.reset.rst = true ∧ transact (.encode 0#64) = .ok 0x7FF8000000000000#64 ∧
    (demo [Pins.idle]).pending = Pins.idle :: [] ∧ Pins.idle.rst = false ∧ Pins.idle.cmdValid = false ∧
    step (demo []) = .next (demo []).idleEdge := ⟨by decide, rfl, rfl, by decide, rfl, rfl, rfl, rfl⟩
theorem witness_HistoryIndependence :
    ∃ t, exec (.encode 1#64) (demo []) = .next t ∧ t.status = 0b00#2 := ⟨_, exec_eq _ _, by decide⟩

theorem witness_OpcodeMapSelects :
    ((0x0000000000000007D#66).getLsbD 65 = false ∧ (0x0000000000000007D#66).getLsbD 64 = false) ∧
    ((0x10000000000000000#66).getLsbD 65 = false ∧ (0x10000000000000000#66).getLsbD 64 = true) ∧
    (0x30000000000000000#66).getLsbD 65 = true := by decide

theorem witness_ReverseRoundTrip : QuietPattern 0xFFFFFFFFFFFFFFFF#64 := by unfold QuietPattern; decide
theorem witness_EncodedValueIsQuietNaN :
    ∃ t, exec (.encode 0x000FFFFFFFFFFFFF#64) (demo []) = .next t ∧ t.status = 0b00#2 := ⟨_, exec_eq _ _, by decide⟩
theorem witness_EncodingIsABijection :
    QuietPattern 0x7FF8000000000000#64 ∧ transact (.decode 0x7FF8000000000000#64) = .ok 0#64 := by
  unfold QuietPattern; decide
theorem witness_EncodingInjectiveAndIncreasingInEachHalf :
    transact (.encode 0#64) = .ok 0x7FF8000000000000#64 ∧
    transact (.encode 0x0007FFFFFFFFFFFF#64) = .ok 0x7FFFFFFFFFFFFFFF#64 ∧
    (0#64).getLsbD 51 = (0x0007FFFFFFFFFFFF#64).getLsbD 51 ∧
    transact (.decode 0xFFF8000000000000#64) = .ok 0x0008000000000000#64 := by decide
theorem witness_CallerContract :
    (Call.encode 4503599627370495).response = .ok 0xFFFFFFFFFFFFFFFF#64 ∧ (Call.encode 0).response = .ok 0x7FF8000000000000#64 ∧
    (Call.encode 4503599627370496).response = .fail .outOfRange ∧ (Call.encode (-1)).response = .fail .outOfRange ∧
    (Call.encode (2 ^ 63)).response = .fail .outOfRange := by decide
/-- A boundary value for each clause on decode (spec/41_decode.md R106's named cases). -/
theorem witness_CallerContract_decode :
    ((0x7FF0000000000000#64).extractLsb' 0 52 = 0#52 ∧
      (Call.decode 0x7FF0000000000000#64).response = .fail .invalidType) ∧
    ((0x7FF0000000000001#64).extractLsb' 52 11 = 0x7FF#11 ∧ (0x7FF0000000000001#64).getLsbD 51 = false ∧
      (0x7FF0000000000001#64).extractLsb' 0 51 ≠ 0#51 ∧
      (Call.decode 0x7FF0000000000001#64).response = .fail .outOfRange) ∧
    ((0xFFF8000000000000#64).extractLsb' 52 11 = 0x7FF#11 ∧ (0xFFF8000000000000#64).getLsbD 51 = true ∧
      (Call.decode 0xFFF8000000000000#64).response = .ok 0x0008000000000000#64) := by decide

theorem witness_StepKeepsRegistersCoherent :
    RegistersCoherent State.reset ∧ ∃ t, step State.reset = .next t :=
  ⟨⟨by decide, fun h => by cases h⟩, _, rfl⟩
theorem witness_FirstResetOrCommandMakesCoherent :
    (demo [Pins.command 0x27FF800000000007D#66]).status = 0b11#2 ∧
    (Pins.command 0x27FF800000000007D#66).cmdValid = true ∧ Pins.reset.rst = true ∧
    (∃ t, step (demo [Pins.command 0x27FF800000000007D#66]) = .next t) ∧
    ∃ t, step (demo [Pins.reset]) = .next t :=
  ⟨rfl, rfl, rfl, ⟨_, clockEdge_eq _ _⟩, _, clockEdge_eq _ _⟩
theorem witness_ScratchIsHidden :
    SameButScratch (demo []) { demo [] with scratch := 1#64 } ∧ demo [] ≠ { demo [] with scratch := 1#64 } :=
  ⟨rfl, by decide⟩
theorem witness_ResponsePersistsOverIdleEdges :
    (demo [Pins.idle, Pins.idle, Pins.reset]).pending = [Pins.idle, Pins.idle] ++ [Pins.reset] ∧
    [Pins.idle, Pins.idle].length = 1 + 1 ∧
    ∀ p ∈ [Pins.idle, Pins.idle], p.rst = false ∧ p.cmdValid = false := by decide
theorem witness_AssemblerLines :
    (-(2 ^ 63) ≤ (-(2 ^ 63) : Int) ∧ (-(2 ^ 63) : Int) < 2 ^ 63) ∧ (2 : Int) ^ 63 ≤ 2 ^ 63 ∧
    1 ≤ [7#4].length ∧ (List.replicate 16 7#4).length ≤ 16 ∧
    ([] : List (BitVec 4)).length = 0 ∧ 16 < (List.replicate 17 7#4).length := by decide

end Sys2Proof.Machine.Tests
end

/-! PROOFS. The edges outside reset (spec/10_state.md R27, R33): one equation of `step` for each, where the host has
pins to drive, and the statements on them. -/

namespace Sys2Proof.Machine

section PendingEdge
variable {s : State} {p : Pins} {ps : List Pins}

/-- A step where the host has pins to drive is the edge on those pins. -/
theorem step_of_pending (h : s.pending = p :: ps) : step s = clockEdge p { s with pending := ps } := by
  rw [step, State.nextPins_of_pending h, State.advance_of_pending h]

/-- R33: a step at whose edge nothing is called is the idle edge. -/
theorem step_of_idle (h : s.pending = p :: ps) (hr : p.rst = false) (hv : p.cmdValid = false) :
    step s = .next (State.idleEdge { s with pending := ps }) := by
  simp [step_of_pending h, clockEdge_eq, hr, hv]

/-- R28: a step at whose edge a command is presented completes that command. -/
theorem step_of_command (h : s.pending = p :: ps) (hr : p.rst = false) (hv : p.cmdValid = true) :
    step s = .next (State.complete (completionOf (decodeWord p.commandWord)) { s with pending := ps }) := by
  simp [step_of_pending h, clockEdge_eq, hr, hv]

end PendingEdge

/-- Settles O3: the next state is the idle edge's, whose fields are those of the statement. -/
theorem idleEdgeHoldsRegisters : Obligations.IdleEdgeHoldsRegisters := by
  intro s op nai opnd ps h
  exact step_of_idle h rfl rfl

/-- Settles O4, by whether a command is presented: the idle edge clears `DONE`, and a completed command sets it and
puts its transaction-level response on the ports. -/
theorem doneFollowsCmdValid : Obligations.DoneFollowsCmdValid := by
  intro s p ps h hr
  cases hv : p.cmdValid with
  | false => exact ⟨_, step_of_idle h hr hv, State.idleEdge_done _, nofun⟩
  | true => exact ⟨_, step_of_command h hr hv, State.complete_done _ _, fun _ => State.complete_response _ _⟩

end Sys2Proof.Machine

/-! PROOFS. The opcode map (spec/30_encoding.md R63): what the decoder answers by the fields `op` and `nai`, which
words each row's match and mask select, and that the rows' selection is the decoder's. -/

namespace Sys2Proof

section OpcodeMap
variable (cw : CommandWord)

section Forms
variable {cw}

theorem decodeWord_eq_encode (ho : opField cw = false) (hn : naiField cw = false) :
    decodeWord cw = .encode (opndField cw) := by
  simp [decodeWord, ho, hn]

theorem decodeWord_eq_encodeNai (ho : opField cw = false) (hn : naiField cw = true) :
    decodeWord cw = .encodeNai := by
  simp [decodeWord, ho, hn]

theorem decodeWord_eq_decode (ho : opField cw = true) : decodeWord cw = .decode (opndField cw) := by
  simp [decodeWord, ho]

end Forms

/-- The three answers of the decoder, each with the fields that select it. -/
theorem decodeWord_cases :
    (opField cw = false ∧ naiField cw = false ∧ decodeWord cw = .encode (opndField cw)) ∨
    (opField cw = false ∧ naiField cw = true ∧ decodeWord cw = .encodeNai) ∨
    (opField cw = true ∧ decodeWord cw = .decode (opndField cw)) := by
  cases ho : opField cw with
  | true => exact .inr (.inr ⟨rfl, decodeWord_eq_decode ho⟩)
  | false =>
    cases hn : naiField cw with
    | false => exact .inl ⟨rfl, rfl, decodeWord_eq_encode ho hn⟩
    | true => exact .inr (.inl ⟨rfl, rfl, decodeWord_eq_encodeNai ho hn⟩)

theorem decodeWord_isEncode_iff :
    (∃ opnd, decodeWord cw = .encode opnd) ↔ opField cw = false ∧ naiField cw = false := by
  obtain ⟨ho, hn, hd⟩ | ⟨ho, hn, hd⟩ | ⟨ho, hd⟩ := decodeWord_cases cw
  · simp [ho, hn, hd]
  · simp [hn, hd]
  · simp [ho, hd]

theorem decodeWord_eq_encodeNai_iff :
    decodeWord cw = .encodeNai ↔ opField cw = false ∧ naiField cw = true := by
  obtain ⟨ho, hn, hd⟩ | ⟨ho, hn, hd⟩ | ⟨ho, hd⟩ := decodeWord_cases cw
  · simp [hn, hd]
  · simp [ho, hn, hd]
  · simp [ho, hd]

theorem decodeWord_isDecode_iff : (∃ opnd, decodeWord cw = .decode opnd) ↔ opField cw = true := by
  obtain ⟨ho, -, hd⟩ | ⟨ho, -, hd⟩ | ⟨ho, hd⟩ := decodeWord_cases cw <;> simp [ho, hd]

/-- The top two bits of a command word are `op` and `nai` (R61). -/
theorem topBits_eq_fields : cw.extractLsb' 64 2 = BitVec.ofBool (opField cw) ++ BitVec.ofBool (naiField cw) := by
  apply BitVec.eq_of_getLsbD_eq
  intro i hi
  simp only [opField, naiField, BitVec.getLsbD_extractLsb', BitVec.getLsbD_append, BitVec.getLsbD_ofBool, hi]
  interval_cases i <;> simp

/-- A match and mask on the top two bits test `op` and `nai` alone. -/
theorem and_topMask_eq_iff (mask pattern : BitVec 2) :
    cw &&& (mask ++ 0#64) = pattern ++ 0#64 ↔
      (BitVec.ofBool (opField cw) ++ BitVec.ofBool (naiField cw)) &&& mask = pattern := by
  have topAndOperand : cw.extractLsb' 64 2 ++ opndField cw = cw :=
    (BitVec.extractLsb'_append_extractLsb'_eq_extractLsb' rfl).trans BitVec.extractLsb'_eq_self
  have masked := Laws.TableRow.top_and_mask (cw.extractLsb' 64 2) mask (opndField cw)
  rw [topAndOperand] at masked
  rw [masked, BitVec.append_left_inj, topBits_eq_fields]

/-- The words the `ENCODE` row selects. -/
theorem encodeRow_iff :
    cw &&& 0x30000000000000000#66 = 0x00000000000000000#66 ↔ opField cw = false ∧ naiField cw = false := by
  refine (and_topMask_eq_iff cw 0b11#2 0b00#2).trans ?_
  cases opField cw <;> cases naiField cw <;> decide

/-- The words the `ENCODE.NAI` row selects. -/
theorem encodeNaiRow_iff :
    cw &&& 0x30000000000000000#66 = 0x10000000000000000#66 ↔ opField cw = false ∧ naiField cw = true := by
  refine (and_topMask_eq_iff cw 0b11#2 0b01#2).trans ?_
  cases opField cw <;> cases naiField cw <;> decide

/-- The words the `DECODE` row selects, whatever `nai` is. -/
theorem decodeRow_iff : cw &&& 0x20000000000000000#66 = 0x20000000000000000#66 ↔ opField cw = true := by
  refine (and_topMask_eq_iff cw 0b10#2 0b10#2).trans ?_
  cases opField cw <;> cases naiField cw <;> decide

/-- A row of the map covers exactly the words that decode to the form it names. -/
theorem covers_iff_mnemonic :
    ∀ row ∈ opcodeMap, row.covers cw = true ↔ row.mnemonic = (decodeWord cw).mnemonic := by
  simp only [opcodeMap, List.forall_mem_cons, OpcodeRow.covers, beq_iff_eq, encodeRow_iff, encodeNaiRow_iff,
    decodeRow_iff]
  obtain ⟨ho, hn, hd⟩ | ⟨ho, hn, hd⟩ | ⟨ho, hd⟩ := decodeWord_cases cw
  · simp [ho, hn, hd, Instr.mnemonic]
  · simp [ho, hn, hd, Instr.mnemonic]
  · simp [ho, hd, Instr.mnemonic]

/-- Every form has one row in the map: the names of the rows differ. -/
theorem existsUnique_row_mnemonic (i : Instr) : ∃! row, row ∈ opcodeMap ∧ row.mnemonic = i.mnemonic := by
  have named : ∃ row ∈ opcodeMap, row.mnemonic = i.mnemonic := by
    cases i <;> simp [opcodeMap, Instr.mnemonic]
  have distinct : (opcodeMap.map OpcodeRow.mnemonic).Nodup := by decide
  obtain ⟨row, hrow, hname⟩ := named
  exact ⟨row, ⟨hrow, hname⟩, fun other ⟨hother, hname'⟩ =>
    List.inj_on_of_nodup_map distinct hother hrow (hname'.trans hname.symm)⟩

/-- R63: exactly one row of the map covers a command word, the row of the form it decodes to. -/
theorem existsUnique_row_covers : ∃! row, row ∈ opcodeMap ∧ row.covers cw = true := by
  have same (row) : row ∈ opcodeMap ∧ row.covers cw = true ↔
      row ∈ opcodeMap ∧ row.mnemonic = (decodeWord cw).mnemonic := and_congr_right (covers_iff_mnemonic cw row)
  simpa only [same] using existsUnique_row_mnemonic (decodeWord cw)

end OpcodeMap

/-- Settles O25: each row's match and mask, and each form of the decoder, say the same of `op` and `nai`. -/
theorem opcodeMapSelects : Obligations.OpcodeMapSelects := by
  intro cw
  exact ⟨decodeWord_eq_encode, decodeWord_eq_encodeNai, decodeWord_eq_decode,
    (encodeRow_iff cw).trans (decodeWord_isEncode_iff cw).symm,
    (encodeNaiRow_iff cw).trans (decodeWord_eq_encodeNai_iff cw).symm,
    (decodeRow_iff cw).trans (decodeWord_isDecode_iff cw).symm, existsUnique_row_covers cw⟩

end Sys2Proof

/-! PROOFS. The encode family (spec/40_encode.md): one equation of `exec` for each way `ENCODE` and `ENCODE.NAI` end
(R84, R85, R86), and the high word of an encoded value as OR, as sum and as concatenation (R83). -/

namespace Sys2Proof.Machine

section EncodeEdges
variable {opnd : Word64} (s : State)

/-- R81: the identifiers are the operands in range as signed integers. -/
theorem validIdentifier_iff_range : ValidIdentifier opnd ↔ 0 ≤ opnd.toInt ∧ opnd.toInt ≤ 4503599627370495 :=
  (identifierInRange_iff opnd).symm.trans decide_eq_true_iff

/-- R84: `ENCODE` of an identifier succeeds with its encoded value. -/
theorem exec_encode_of_valid (h : ValidIdentifier opnd) :
    exec (.encode opnd) s = .next (s.succeed (encodedValue opnd) (encodedValue opnd)) := by
  rw [exec_eq, completionOf, encodeCompletion_of_valid h, State.complete]

/-- R85: `ENCODE` of any other operand fails with `OutOfRange`. -/
theorem exec_encode_of_not_valid (h : ¬ ValidIdentifier opnd) :
    exec (.encode opnd) s = .next (s.failWith .outOfRange) := by
  rw [exec_eq, completionOf, encodeCompletion_of_not_valid h, State.complete]

/-- R86: `ENCODE.NAI` fails with `InvalidType`. -/
theorem exec_encodeNai : exec .encodeNai s = .next (s.failWith .invalidType) := exec_eq .encodeNai s

end EncodeEdges

section DisjointWords
variable {w : Nat}

/-- A word that shares no bit with a mask shares none with a word under that mask. -/
theorem and_masked_eq_zero {x mask : BitVec w} (disjoint : x &&& mask = 0#w) (a : BitVec w) :
    x &&& (a &&& mask) = 0#w := by
  rw [BitVec.and_comm a, ← BitVec.and_assoc, disjoint, BitVec.zero_and]

/-- Of three words that pairwise share no bit, the OR is the sum. -/
theorem or_eq_add_of_disjoint {x y z : BitVec w} (hxy : x &&& y = 0#w) (hxz : x &&& z = 0#w)
    (hyz : y &&& z = 0#w) : x ||| y ||| z = x + y + z := by
  have hxyz : (x ||| y) &&& z = 0#w := by rw [BitVec.and_or_distrib_right, hxz, hyz, BitVec.or_zero]
  rw [BitVec.add_eq_or_of_and_eq_zero x y hxy, BitVec.add_eq_or_of_and_eq_zero _ z hxyz]

end DisjointWords

section HighWord
variable (h : HighPart) (h32 : Word32)

/-- The third term of the high word has bit 31 alone. -/
theorem shiftedTerm_eq_masked :
    (h32 &&& maskB19) <<< signShift = (h32 <<< signShift) &&& 0x80000000#32 :=
  BitVec.shiftLeft_and_distrib h32 maskB19 signShift

/-- The fixed mask holds bits 30..19, the second term bits 18..0. -/
theorem expQ_and_h19Term : maskExpQ &&& (h32 &&& maskH19) = 0#32 :=
  and_masked_eq_zero (by decide) h32

/-- The fixed mask holds bits 30..19, the third term bit 31. -/
theorem expQ_and_shiftedTerm : maskExpQ &&& ((h32 &&& maskB19) <<< signShift) = 0#32 := by
  rw [shiftedTerm_eq_masked]
  exact and_masked_eq_zero (by decide) _

/-- The second term holds bits 18..0, the third bit 31. -/
theorem h19Term_and_shiftedTerm : (h32 &&& maskH19) &&& ((h32 &&& maskB19) <<< signShift) = 0#32 := by
  have disjoint : 0x80000000#32 &&& (h32 &&& maskH19) = 0#32 := and_masked_eq_zero (by decide) h32
  rw [shiftedTerm_eq_masked]
  exact and_masked_eq_zero (by rw [BitVec.and_comm, disjoint]) _

/-- R83, the OR as addition. -/
theorem assembleHighWord_eq_add :
    assembleHighWord h =
      maskExpQ + (h.setWidth 32 &&& maskH19) + ((h.setWidth 32 &&& maskB19) <<< signShift) :=
  or_eq_add_of_disjoint (expQ_and_h19Term _) (expQ_and_shiftedTerm _) (h19Term_and_shiftedTerm _)

/-- R83, the OR as concatenation: the bits below 19, bit 19, the bits below 31 and bit 31 in turn. -/
theorem assembleHighWord_eq_append :
    assembleHighWord h = h.extractLsb' 19 1 ++ (0x7FF#11 ++ (1#1 ++ h.extractLsb' 0 19)) := by
  have ones : ∀ j < 11, (0x7FF#11).getLsbD j = true := by decide
  apply BitVec.eq_of_getLsbD_eq
  intro i hi
  rw [assembleHighWord_getLsbD h hi]
  simp only [BitVec.getLsbD_append, BitVec.getLsbD_extractLsb', Nat.zero_add]
  by_cases payload : i < 19
  · simp [payload, show i < 20 by omega, show i < 31 by omega]
  by_cases quiet : i = 19
  · simp [quiet]
  by_cases exponent : i < 31
  · simp [payload, exponent, show ¬ i < 20 by omega, ones (i - 20) (by omega)]
  · obtain rfl : i = 31 := by omega
    simp

/-- The high half of an encoded value is the assembled high word. -/
theorem extractHigh_encodedValue (opnd : Word64) :
    (encodedValue opnd).extractLsb' 32 32 = assembleHighWord (highPart opnd) :=
  BitVec.extractLsb'_append_eq_left

end HighWord

/-- Settles O9: each form of R85's condition says that the operand is no identifier. -/
theorem encodeFailure : Obligations.EncodeFailure := by
  intro opnd s h
  have invalid : ¬ ValidIdentifier opnd := by
    rcases h with bits | range
    · exact bits
    · rw [validIdentifier_iff_range]; omega
  exact ⟨_, _, _, exec_encode_of_not_valid s invalid⟩

/-- Settles O10: the decoder reads `op` and `nai` before the operand field, and `ENCODE.NAI` has one way to end. -/
theorem encodeNaiAlwaysFails : Obligations.EncodeNaiAlwaysFails :=
  ⟨decodeWord_top 0b01#2, fun s => ⟨_, _, _, exec_encodeNai s⟩⟩

/-- Settles O11: the high half of `RESULT` is the assembled high word, whose three terms share no bit. -/
theorem encodeHighWord : Obligations.EncodeHighWord := by
  intro opnd s valid
  exact ⟨_, _, _, _, _, _, rfl, rfl, rfl, rfl, exec_encode_of_valid s valid, extractHigh_encodedValue opnd, rfl,
    expQ_and_h19Term _, expQ_and_shiftedTerm _, h19Term_and_shiftedTerm _,
    assembleHighWord_eq_add (highPart opnd), assembleHighWord_eq_append (highPart opnd)⟩

end Sys2Proof.Machine

/-! PROOFS. The laws tying the two commands (spec/42_laws.md): the encoded value and the decoded result undo each other,
bit by bit, between the identifiers and the quiet-NaN patterns (R120, R121); every encoded value is a quiet NaN (R122);
and how a command ends does not depend on the state it starts from (R130). -/

namespace Sys2Proof.Machine

/-- R105: `DECODE` of a quiet-NaN pattern succeeds with its identifier. -/
theorem exec_decode_of_quiet {v : Word64} (s : State) (h : QuietPattern v) :
    exec (.decode v) s = .next (s.succeed v (decodedResult v)) := by
  rw [exec_eq, completionOf, decodeCompletion_of_quiet h, State.complete]

section BitMovesInverse
variable {opnd v : Word64}

/-- The bits of an identifier above bit 51 are zeros. -/
theorem ValidIdentifier.getLsbD_eq_false (h : ValidIdentifier opnd) {i : Nat} (above : 52 ≤ i) (hi : i < 64) :
    opnd.getLsbD i = false := by
  have := (extractLsb'_eq_zero_iff opnd 52 12).1 h (i - 52) (by omega)
  rwa [Nat.add_sub_cancel' above] at this

/-- The bits 62..51 of a quiet-NaN pattern are ones. -/
theorem QuietPattern.getLsbD_eq_true (h : QuietPattern v) {i : Nat} (above : 51 ≤ i) (hi : i < 63) :
    v.getLsbD i = true := by
  obtain ⟨exponent, quiet⟩ := h
  obtain rfl | above := above.eq_or_lt
  · exact quiet
  · have := (exponentField_eq_iff v).1 exponent (i - 52) (by omega)
    rwa [Nat.add_sub_cancel' above] at this

/-- What `DECODE` delivers is an identifier, whatever the pattern. -/
theorem decodedResult_validIdentifier (v : Word64) : ValidIdentifier (decodedResult v) := by
  refine (extractLsb'_eq_zero_iff _ 52 12).2 fun i hi => ?_
  rw [decodedResult_getLsbD v (by omega), if_neg (by omega), if_neg (by omega)]

/-- R120 on the bits: payload bits 50..0 stand still, bit 51 goes to the sign and back, and the bits above are zeros on
both sides. -/
theorem decodedResult_encodedValue (h : ValidIdentifier opnd) : decodedResult (encodedValue opnd) = opnd := by
  apply BitVec.eq_of_getLsbD_eq
  intro i hi
  rw [decodedResult_getLsbD _ hi]
  by_cases payload : i < 51
  · rw [if_pos payload, encodedValue_getLsbD _ hi, if_pos payload]
  by_cases top : i = 51
  · rw [if_neg payload, if_pos top, encodedValue_getLsbD _ (by omega), if_neg (by omega), if_neg (by omega), top]
  · rw [if_neg payload, if_neg top, h.getLsbD_eq_false (by omega) hi]

/-- R121 on the bits: payload bits 50..0 stand still, bits 62..51 are ones on both sides, and the sign goes to bit 51
and back. -/
theorem encodedValue_decodedResult (h : QuietPattern v) : encodedValue (decodedResult v) = v := by
  apply BitVec.eq_of_getLsbD_eq
  intro i hi
  rw [encodedValue_getLsbD _ hi]
  by_cases payload : i < 51
  · rw [if_pos payload, decodedResult_getLsbD _ hi, if_pos payload]
  by_cases ones : i < 63
  · rw [if_neg payload, if_pos ones, h.getLsbD_eq_true (by omega) ones]
  · obtain rfl : i = 63 := by omega
    rw [if_neg payload, if_neg ones, decodedResult_getLsbD _ (by omega), if_neg (by omega), if_pos rfl]

end BitMovesInverse

/-- A quiet-NaN pattern has a nonzero mantissa: bit 51 is one. -/
theorem QuietPattern.mantissa_ne_zero {v : Word64} (h : QuietPattern v) : v.extractLsb' 0 52 ≠ 0#52 := by
  intro zero
  have clear := (extractLsb'_eq_zero_iff v 0 52).1 zero 51 (by omega)
  exact Bool.false_ne_true (clear.symm.trans h.2)

/-- Inversion of a successful `ENCODE`: the operand is an identifier and the next state holds its encoded value. -/
theorem exec_encode_ok {opnd : Word64} {s t : State} (run : exec (.encode opnd) s = .next t)
    (ok : t.status = codeOk) :
    ValidIdentifier opnd ∧ t = s.succeed (encodedValue opnd) (encodedValue opnd) := by
  by_cases valid : ValidIdentifier opnd
  · rw [exec_encode_of_valid s valid] at run
    exact ⟨valid, (Host.Outcome.next.inj run).symm⟩
  · rw [exec_encode_of_not_valid s valid] at run
    obtain rfl := Host.Outcome.next.inj run
    exact absurd ok (FailKind.code_ne_codeOk .outOfRange)

/-- Settles O23: the completion is the same from both states, a success writes only its values, and the code of a
failure is not `OK`. -/
theorem historyIndependence : Obligations.HistoryIndependence := by
  intro i s1 s2
  refine ⟨_, _, exec_eq i s1, exec_eq i s2, ?_⟩
  cases completionOf i with
  | ok b r => exact ⟨rfl, fun _ => ⟨rfl, rfl⟩⟩
  | fail k => exact ⟨rfl, fun ok => absurd ok (FailKind.code_ne_codeOk k)⟩

/-- Settles O29: an identifier's encoded value is a quiet-NaN pattern, and its decoded result is the identifier. -/
theorem roundTrip : Obligations.RoundTrip := by
  intro opnd s s' valid
  exact ⟨_, _, exec_encode_of_valid s valid, rfl, exec_decode_of_quiet s' (encodedValue_quietPattern opnd), rfl,
    decodedResult_encodedValue valid⟩

/-- Settles O30: what `DECODE` delivers is an identifier, and its encoded value is the quiet-NaN pattern. -/
theorem reverseRoundTrip : Obligations.ReverseRoundTrip := by
  intro v s s' quiet
  have valid := decodedResult_validIdentifier v
  exact ⟨_, _, exec_decode_of_quiet s quiet, rfl, valid, exec_encode_of_valid s' valid, rfl,
    encodedValue_decodedResult quiet⟩

/-- Settles O31: a successful `ENCODE` leaves an encoded value, which is a quiet-NaN pattern. -/
theorem encodedValueIsQuietNaN : Obligations.EncodedValueIsQuietNaN := by
  intro opnd s t run ok
  obtain ⟨-, rfl⟩ := exec_encode_ok run ok
  have quiet := encodedValue_quietPattern opnd
  exact ⟨quiet.1, quiet.2, quiet.mantissa_ne_zero, isNaN64_of_quietPattern quiet, quiet⟩

end Sys2Proof.Machine

/-! PROOFS. The failing commands (spec/60_exceptions.md R146): a failure at transaction level is a failing completion,
its edge is `State.failWith`, and from every state the next command puts its own response on the ports. -/

namespace Sys2Proof.Machine

/-- A completion whose response is a failure is that failure. -/
@[simp] theorem Completion.response_eq_fail_iff {c : Completion} {k : FailKind} :
    c.response = .fail k ↔ c = .fail k := by
  cases c with
  | ok b r => exact ⟨nofun, nofun⟩
  | fail k' => simp [Completion.response]

/-- R146: a command that fails at transaction level ends in `fail` of that kind. -/
theorem exec_of_transact_fail {i : Instr} {k : FailKind} (h : transact i = .fail k) (s : State) :
    exec i s = .next (s.failWith k) := by
  have fails : completionOf i = .fail k := Completion.response_eq_fail_iff.1 h
  rw [exec_eq, fails, State.complete]

/-- R28: from every state a command completes, with its own response on the ports. -/
theorem exec_response (i : Instr) (s : State) : ∃ t, exec i s = .next t ∧ t.response = some (transact i) :=
  ⟨_, exec_eq i s, State.complete_response _ s⟩

/-- Settles O20: the next state is `State.failWith` of the kind, its code one of R26's two, and the next command
completes from there as from every state. -/
theorem failureEntry : Obligations.FailureEntry := by
  intro i s k h
  refine ⟨Config.any64 s.nextDraw, Config.any64 (s.nextDraw + 1), s.nextDraw + 2, s.failWith k, ?registers,
    exec_of_transact_fail h s, fun j => exec_response j _⟩
  case registers =>
    cases k with
    | invalidType => rfl
    | outOfRange => rfl

end Sys2Proof.Machine

/-! PROOFS. The reset edge (spec/70_reset_and_hazards.md R170, R171): the equation of `step` for it, which does not ask
what the other pins hold, and the ports after it, on which no response is valid. -/

namespace Sys2Proof.Machine

/-- R171: a step at whose edge `rst` is 1 is the reset edge, whether or not a command is presented. -/
theorem step_of_reset {s : State} {p : Pins} {ps : List Pins} (h : s.pending = p :: ps) (hr : p.rst = true) :
    step s = .next (State.resetEdge { s with pending := ps }) := by
  rw [step_of_pending h, clockEdge_eq, if_pos hr]

/-- R64: while `DONE` is 0, the ports hold no response. -/
theorem State.response_eq_none_of_not_done {s : State} (h : s.done = false) : s.response = none := by
  simp [State.response, State.outputs, Outputs.response, h]

/-- Settles O2: the step is the reset edge, which draws `SCRATCH` and `RESULT`; it clears `DONE`, so no response is
valid after it. -/
theorem resetEdgeWins : Obligations.ResetEdgeWins := by
  intro s p ps h hr
  have reset := step_of_reset h hr
  refine ⟨_, _, _, reset, fun t ht => ?_⟩
  obtain rfl := Host.Outcome.next.inj (reset.symm.trans ht)
  exact State.response_eq_none_of_not_done (State.resetEdge_done _)

end Sys2Proof.Machine

/-! PROOFS. Encoder and decoder of command words (spec/30_encoding.md R66, R71): a word is its top two bits and its
operand, so encoding a decoded word gives it back exactly where the fields the decoder drops are zero. -/

namespace Sys2Proof

/-- R71: decoding an encoded command gives it back. -/
theorem decodeWord_encodeWord (i : Instr) : decodeWord (encodeWord i) = i := by
  cases i with
  | encode opnd => exact decodeWord_top 0b00#2 opnd
  | encodeNai => exact decodeWord_top 0b01#2 0#64
  | decode opnd => exact decodeWord_top 0b10#2 opnd

section RoundTripOfWords
variable (cw : CommandWord)

/-- A word written as its top two bits and an operand, compared field by field. -/
theorem top_append_eq_iff (top : BitVec 2) (v : Word64) :
    (top ++ v : CommandWord) = cw ↔
      top = BitVec.ofBool (opField cw) ++ BitVec.ofBool (naiField cw) ∧ v = opndField cw := by
  constructor
  · rintro rfl
    exact ⟨BitVec.extractLsb'_append_eq_left.symm.trans (topBits_eq_fields _), (opndField_top top v).symm⟩
  · rintro ⟨rfl, rfl⟩
    rw [← topBits_eq_fields]
    exact (BitVec.extractLsb'_append_extractLsb'_eq_extractLsb' rfl).trans BitVec.extractLsb'_eq_self

/-- R71's canonical form, by the fields. -/
theorem canonicalWord_iff :
    canonicalWord cw = true ↔
      (opField cw = true → naiField cw = false) ∧
      (opField cw = false → naiField cw = true → opndField cw = 0#64) := by
  change (if opField cw then !naiField cw else if naiField cw then opndField cw == 0#64 else true) = true ↔ _
  cases opField cw <;> cases naiField cw <;> simp

/-- R71: encoding a decoded word gives it back exactly where the word is canonical. -/
theorem encodeWord_decodeWord_iff : encodeWord (decodeWord cw) = cw ↔ canonicalWord cw = true := by
  rw [canonicalWord_iff]
  obtain ⟨ho, hn, hd⟩ | ⟨ho, hn, hd⟩ | ⟨ho, hd⟩ := decodeWord_cases cw
  · rw [hd, encodeWord, top_append_eq_iff, ho, hn]
    simp
  · rw [hd, encodeWord, top_append_eq_iff, ho, hn]
    simp [eq_comm]
  · rw [hd, encodeWord, top_append_eq_iff, ho]
    cases naiField cw <;> simp

end RoundTripOfWords

/-- Settles O26: the encoder writes zeros where the decoder drops a field, and the canonical words are those that hold
zeros there. -/
theorem decodeEncodeRoundTrip : Obligations.DecodeEncodeRoundTrip :=
  ⟨decodeWord_encodeWord, fun cw => (encodeWord_decodeWord_iff cw).trans (canonicalWord_iff cw),
    fun cw => (encodeWord_decodeWord_iff cw).symm⟩

/-- Settles O27: `DECODE` and `ENCODE.NAI` are decoded from the top two bits alone, and an edge outside reset with no
command is the idle edge. -/
theorem dontCareFields : Obligations.DontCareFields := by
  refine ⟨fun opnd => ?_, fun a b => ?_, fun op nai op' nai' a b s => ?_⟩
  · exact (decodeWord_top 0b10#2 opnd).trans (decodeWord_top 0b11#2 opnd).symm
  · exact (decodeWord_top 0b01#2 a).trans (decodeWord_top 0b01#2 b).symm
  · simp [Machine.clockEdge_eq]

/-- A command read from a number is that of the low bits, which fit the command word. -/
theorem decodeTableWord_eq_some {nbits w : Nat} {i : Instr} (h : decodeTableWord nbits w = some i) :
    decodeWord (BitVec.ofNat 66 (w % 2 ^ nbits)) = i := by
  by_cases fits : w % 2 ^ nbits < 2 ^ 66
  · rw [decodeTableWord, decodeBits, if_pos fits] at h
    exact Option.some.inj h
  · rw [decodeTableWord, decodeBits, if_neg fits] at h
    cases h

/-- Settles O28, each of the five numbers by evaluation. -/
theorem someWordsDecode : Obligations.SomeWordsDecode := by
  unfold Obligations.SomeWordsDecode
  decide

end Sys2Proof

/-! PROOFS. What a step does to what the host sees (spec/10_state.md R28, R31, R33): it always goes through, takes one
edge, and puts that edge's response on the ports. From this the observation of a run (spec/00_scope.md R13) and the
number of its steps (spec/70_reset_and_hazards.md R180). -/

namespace Sys2Proof.Machine

/-- Every step answers a next state (spec/42_laws.md R129). -/
theorem exists_step_eq_next (s : State) : ∃ t, step s = .next t :=
  ⟨_, clockEdge_eq s.nextPins s.advance⟩

section OneStep
variable {s t : State} (h : step s = .next t)
include h

/-- A step takes one edge from those pending. -/
theorem step_pending : t.pending = s.pending.tail := by
  obtain ⟨-, rfl⟩ | ⟨-, -, rfl⟩ | ⟨-, -, rfl⟩ := step_cases h
  · rw [State.resetEdge_pending, State.advance_pending]
  · rw [State.complete_pending, State.advance_pending]
  · rw [State.idleEdge_pending, State.advance_pending]

/-- The response on the ports after a step is that of the pins it took (R27, R28). -/
theorem step_response : t.response = s.nextPins.response := by
  obtain ⟨hr, rfl⟩ | ⟨hr, hv, rfl⟩ | ⟨hr, hv, rfl⟩ := step_cases h
  · rw [State.response_eq_none_of_not_done (State.resetEdge_done _), Pins.response, if_pos hr]
  · simp [Pins.response, hr, hv, transact]
  · rw [State.response_eq_none_of_not_done (State.idleEdge_done _)]
    simp [Pins.response, hr, hv]

theorem observe_succ (k : Nat) : observe (k + 1) s = s.nextPins.response.toList ++ observe k t := by
  rw [observe, h, ← step_response h]

end OneStep

/-- R13: what is observed of `k` edges is the responses of the first `k` edges pending; past the end of the list there
are idle edges, which give none. -/
theorem observe_eq (k : Nat) (s : State) : observe k s = (s.pending.take k).filterMap Pins.response := by
  induction k generalizing s with
  | zero => rw [observe, List.take_zero, List.filterMap_nil]
  | succ k ih =>
    obtain ⟨t, ht⟩ := exists_step_eq_next s
    rw [observe_succ ht, ih, step_pending ht, State.nextPins]
    cases s.pending with
    | nil => simp [Pins.response, Pins.idle]
    | cons p ps => cases hp : p.response <;> simp [hp]

/-- Settles O39: what is observed over as many edges as are pending is all their responses. -/
theorem observationOfARun : Obligations.ObservationOfARun := by
  intro s
  rw [observe_eq, List.take_length]

section HiddenScratch
variable (s : State) (x : Word64)

/-- A command's end overwrites `SCRATCH` without reading it. -/
theorem complete_sameButScratch (c : Completion) :
    SameButScratch (s.complete c) (State.complete c { s with scratch := x }) := by
  cases c <;> rfl

/-- A step from a state with another `SCRATCH` gives the same state, but for `SCRATCH` after an idle edge. -/
theorem step_with_scratch :
    ∃ s' t', step s = .next s' ∧ step { s with scratch := x } = .next t' ∧ SameButScratch s' t' := by
  refine ⟨_, _, clockEdge_eq s.nextPins s.advance, clockEdge_eq s.nextPins { s.advance with scratch := x }, ?_⟩
  cases s.nextPins.rst with
  | true => rfl
  | false =>
    cases s.nextPins.cmdValid with
    | true => exact complete_sameButScratch s.advance x _
    | false => rfl

end HiddenScratch

/-- `SCRATCH` is on no port, and it is no part of the pending edges. -/
theorem SameButScratch.outputs_eq {s t : State} (h : SameButScratch s t) : s.outputs = t.outputs := by
  rw [← h]; rfl

theorem SameButScratch.pending_eq {s t : State} (h : SameButScratch s t) : s.pending = t.pending := by
  rw [← h]

/-- Settles O40: a step keeps two states equal but for `SCRATCH`, and the observation of a run is a function of the
pending edges alone. -/
theorem scratchIsHidden : Obligations.ScratchIsHidden := by
  refine ⟨fun s t same => ?_, fun k s t same => ?_⟩
  · obtain ⟨s', t', hs, ht, same'⟩ := step_with_scratch s t.scratch
    rw [show { s with scratch := t.scratch } = t from same] at ht
    exact ⟨s', t', hs, ht, same'.outputs_eq, same'⟩
  · rw [observe_eq, observe_eq, same.pending_eq]

/-- Settles O41, by induction on the number of steps: each goes through and takes one edge. -/
theorem oneStepPerEdge : Obligations.OneStepPerEdge := by
  intro k
  induction k with
  | zero => exact fun s => ⟨s, rfl, rfl⟩
  | succ k ih =>
    intro s
    obtain ⟨t, ht⟩ := exists_step_eq_next s
    obtain ⟨u, run, pending⟩ := ih t
    exact ⟨u, (core_run_succ ht k).trans run, by rw [pending, step_pending ht, List.drop_tail]⟩

/-- Settles O42, by induction on the number of idle edges: each clears `DONE` and keeps the other registers. -/
theorem responsePersistsOverIdleEdges : Obligations.ResponsePersistsOverIdleEdges := by
  intro k
  induction k with
  | zero =>
    intro s ps qs pending len idle
    obtain ⟨p, rfl⟩ := List.length_eq_one_iff.1 len
    obtain ⟨hr, hv⟩ := idle p List.mem_cons_self
    exact core_run_succ (step_of_idle pending hr hv) 0
  | succ k ih =>
    intro s ps qs pending len idle
    obtain ⟨p, rest, rfl⟩ := List.exists_cons_of_length_eq_add_one len
    obtain ⟨⟨hr, hv⟩, idle⟩ := List.forall_mem_cons.1 idle
    have first := step_of_idle (pending.trans List.cons_append) hr hv
    exact (core_run_succ first (k + 1)).trans (ih _ rest qs rfl (Nat.succ.inj len) idle)

/-- Settles O24: a step is always one of the three edges, and each answers a next state. -/
theorem everyStepCompletes : Obligations.EveryStepCompletes := exists_step_eq_next

/-- Settles O1: the step is the edge on the first pins pending, and the pins of a word presented carry that word. -/
theorem stepRunsPresentedCommand : Obligations.StepRunsPresentedCommand := by
  refine ⟨fun s p ps pending hr hv => ?_, fun s nbits w i decoded => ?_⟩
  · rw [step_of_command pending hr hv, exec_eq]
  · have present : (s.withFetchWord nbits w).pending = Pins.command (BitVec.ofNat 66 (w % 2 ^ nbits)) :: s.pending :=
      rfl
    rw [step_of_command present rfl rfl, Pins.commandWord_command, decodeTableWord_eq_some decoded, exec_eq]
    rfl

/-- Settles O5: with nothing pending the pins taken are those of an idle edge. -/
theorem noMoreEdgesIsIdle : Obligations.NoMoreEdgesIsIdle := by
  intro s empty
  have pins : s.nextPins = Pins.idle := by rw [State.nextPins, empty]; rfl
  have unchanged : s.advance = s := by rw [State.advance, empty, List.tail_nil, ← empty]
  rw [step, pins, unchanged]
  rfl

/-- Settles O6: `DONE` is 0 after reset, so no response is valid. -/
theorem resetLeavesStatusAndDone : Obligations.ResetLeavesStatusAndDone :=
  ⟨rfl, rfl, State.response_eq_none_of_not_done rfl⟩

/-- A 32-bit field is its four bytes, the last the lowest. -/
theorem extractLsb'_eq_four_bytes (v : Word64) (lo : Nat) :
    v.extractLsb' lo 32 =
      v.extractLsb' (lo + 24) 8 ++ (v.extractLsb' (lo + 16) 8 ++
        (v.extractLsb' (lo + 8) 8 ++ v.extractLsb' lo 8 : BitVec 16) : BitVec 24) := by
  have join (n : Nat) : v.extractLsb' (lo + n) 8 ++ v.extractLsb' lo n = v.extractLsb' lo (8 + n) :=
    BitVec.extractLsb'_append_extractLsb'_eq_extractLsb' rfl
  rw [join 8, join 16, join 24]

/-- Settles O44: the four bytes from bit 0 and the four from bit 32. -/
theorem scratchBytes : Obligations.ScratchBytes :=
  fun s => ⟨extractLsb'_eq_four_bytes s.scratch 0, extractLsb'_eq_four_bytes s.scratch 32⟩

end Sys2Proof.Machine

/-! PROOFS. The transaction-level view (spec/10_state.md R28): which response each command gives, as an equivalence
for every response (spec/60_exceptions.md R141, R142, R144), and the laws on the codec as a function (spec/42_laws.md
R123, R124). -/

namespace Sys2Proof.Machine

section Responses
variable {opnd v r : Word64}

/-- The two responses of `ENCODE`, each with the operands that get it (spec/40_encode.md R81). -/
theorem transact_encode_cases (opnd : Word64) :
    (ValidIdentifier opnd ∧ transact (.encode opnd) = .ok (encodedValue opnd)) ∨
    (¬ ValidIdentifier opnd ∧ transact (.encode opnd) = .fail .outOfRange) :=
  (em (ValidIdentifier opnd)).imp
    (fun valid => ⟨valid, congrArg Completion.response (encodeCompletion_of_valid valid)⟩)
    (fun invalid => ⟨invalid, congrArg Completion.response (encodeCompletion_of_not_valid invalid)⟩)

/-- The three responses of `DECODE`, each with the operands that get it (spec/41_decode.md R101, R103, R105). -/
theorem transact_decode_cases (v : Word64) :
    (isNaN64 v = false ∧ ¬ QuietPattern v ∧ transact (.decode v) = .fail .invalidType) ∨
    (isNaN64 v = true ∧ ¬ QuietPattern v ∧ transact (.decode v) = .fail .outOfRange) ∨
    (isNaN64 v = true ∧ QuietPattern v ∧ transact (.decode v) = .ok (decodedResult v)) := by
  by_cases quiet : QuietPattern v
  · exact .inr (.inr ⟨isNaN64_of_quietPattern quiet, quiet,
      congrArg Completion.response (decodeCompletion_of_quiet quiet)⟩)
  · cases nan : isNaN64 v with
    | false => exact .inl ⟨rfl, quiet, congrArg Completion.response (decodeCompletion_of_not_nan nan)⟩
    | true =>
      exact .inr (.inl ⟨rfl, quiet, congrArg Completion.response (decodeCompletion_of_nan_not_quiet nan quiet)⟩)

theorem transact_encodeNai : transact .encodeNai = .fail .invalidType := rfl

theorem transact_encode_eq_ok_iff :
    transact (.encode opnd) = .ok v ↔ ValidIdentifier opnd ∧ encodedValue opnd = v := by
  obtain ⟨valid, h⟩ | ⟨invalid, h⟩ := transact_encode_cases opnd
  · simp [h, valid]
  · simp [h, invalid]

theorem transact_encode_eq_outOfRange_iff :
    transact (.encode opnd) = .fail .outOfRange ↔ ¬ ValidIdentifier opnd := by
  obtain ⟨valid, h⟩ | ⟨invalid, h⟩ := transact_encode_cases opnd
  · simp [h, valid]
  · simp [h, invalid]

theorem transact_encode_ne_invalidType : transact (.encode opnd) ≠ .fail .invalidType := by
  obtain ⟨-, h⟩ | ⟨-, h⟩ := transact_encode_cases opnd <;> simp [h]

theorem transact_decode_eq_ok_iff : transact (.decode v) = .ok r ↔ QuietPattern v ∧ decodedResult v = r := by
  obtain ⟨-, quiet, h⟩ | ⟨-, quiet, h⟩ | ⟨-, quiet, h⟩ := transact_decode_cases v <;> simp [h, quiet]

theorem transact_decode_eq_outOfRange_iff :
    transact (.decode v) = .fail .outOfRange ↔ isNaN64 v = true ∧ ¬ QuietPattern v := by
  obtain ⟨nan, quiet, h⟩ | ⟨nan, quiet, h⟩ | ⟨nan, quiet, h⟩ := transact_decode_cases v <;> simp [h, nan, quiet]

theorem transact_decode_eq_invalidType_iff : transact (.decode v) = .fail .invalidType ↔ ¬ isNaN64 v = true := by
  obtain ⟨nan, -, h⟩ | ⟨nan, -, h⟩ | ⟨nan, -, h⟩ := transact_decode_cases v <;> simp [h, nan]

/-- `ENCODE` accepts the identifiers. -/
theorem exists_transact_encode_eq_ok_iff : (∃ r, transact (.encode opnd) = .ok r) ↔ ValidIdentifier opnd := by
  simp [transact_encode_eq_ok_iff]

/-- `DECODE` accepts the quiet-NaN patterns. -/
theorem exists_transact_decode_eq_ok_iff : (∃ r, transact (.decode v) = .ok r) ↔ QuietPattern v := by
  simp [transact_decode_eq_ok_iff]

/-- R123: `ENCODE` and `DECODE` are inverse to each other as relations. -/
theorem transact_encode_ok_iff_decode_ok : transact (.encode opnd) = .ok v ↔ transact (.decode v) = .ok opnd := by
  rw [transact_encode_eq_ok_iff, transact_decode_eq_ok_iff]
  constructor
  · rintro ⟨valid, rfl⟩
    exact ⟨encodedValue_quietPattern opnd, decodedResult_encodedValue valid⟩
  · rintro ⟨quiet, rfl⟩
    exact ⟨decodedResult_validIdentifier v, encodedValue_decodedResult quiet⟩

end Responses

/-- Settles O32: the identifier of a quiet-NaN pattern is what `DECODE` delivers, and there is no other, since
`DECODE` gives one response. -/
theorem encodingIsABijection : Obligations.EncodingIsABijection := by
  refine ⟨fun v => ?_, fun opnd v => transact_encode_ok_iff_decode_ok, fun v => exists_transact_decode_eq_ok_iff⟩
  rw [← exists_transact_decode_eq_ok_iff]
  constructor
  · rintro ⟨r, decodes⟩
    have encodes := transact_encode_ok_iff_decode_ok.2 decodes
    refine ⟨r, ⟨(transact_encode_eq_ok_iff.1 encodes).1, encodes⟩, fun other ⟨_, encodes'⟩ => ?_⟩
    exact Response.ok.inj ((transact_encode_ok_iff_decode_ok.1 encodes').symm.trans decodes)
  · rintro ⟨opnd, ⟨-, encodes⟩, -⟩
    exact ⟨opnd, transact_encode_ok_iff_decode_ok.1 encodes⟩

section Order

/-- The low 51 bits of an identifier stand in its pattern as they are (spec/30_encoding.md R65). -/
theorem encodedValue_toNat_mod (opnd : Word64) : (encodedValue opnd).toNat % 2 ^ 51 = opnd.toNat % 2 ^ 51 := by
  apply Nat.eq_of_testBit_eq
  intro i
  simp only [Nat.testBit_mod_two_pow, BitVec.testBit_toNat]
  by_cases low : i < 51
  · rw [encodedValue_getLsbD opnd (by omega), if_pos low]
  · simp [low]

/-- Words that agree from bit 51 up are ordered as their low 51 bits are. -/
theorem toNat_lt_iff_low_lt {v w : Word64} (high : ∀ i < 64, 51 ≤ i → v.getLsbD i = w.getLsbD i) :
    v.toNat < w.toNat ↔ v.toNat % 2 ^ 51 < w.toNat % 2 ^ 51 := by
  have quotients : v.toNat / 2 ^ 51 = w.toNat / 2 ^ 51 := by
    apply Nat.eq_of_testBit_eq
    intro i
    simp only [Nat.testBit_div_two_pow, BitVec.testBit_toNat]
    by_cases hi : i + 51 < 64
    · exact high _ hi (by omega)
    · rw [BitVec.getLsbD_of_ge v _ (by omega), BitVec.getLsbD_of_ge w _ (by omega)]
  omega

/-- R124: between identifiers with one bit 51 the pattern grows as the identifier does. -/
theorem encodedValue_toNat_lt_iff {a b : Word64} (ha : ValidIdentifier a) (hb : ValidIdentifier b)
    (half : a.getLsbD 51 = b.getLsbD 51) :
    a.toNat < b.toNat ↔ (encodedValue a).toNat < (encodedValue b).toNat := by
  have operands : ∀ i < 64, 51 ≤ i → a.getLsbD i = b.getLsbD i := by
    intro i hi above
    obtain rfl | above := above.eq_or_lt
    · exact half
    · rw [ha.getLsbD_eq_false above hi, hb.getLsbD_eq_false above hi]
  have patterns : ∀ i < 64, 51 ≤ i → (encodedValue a).getLsbD i = (encodedValue b).getLsbD i := by
    intro i hi above
    have high : ¬ i < 51 := by omega
    simp only [encodedValue_getLsbD _ hi, if_neg high, half]
  rw [toNat_lt_iff_low_lt operands, toNat_lt_iff_low_lt patterns, encodedValue_toNat_mod, encodedValue_toNat_mod]

end Order

/-- Settles O33: each of `ENCODE` and `DECODE` gives one response to what the other delivers, and the low 51 bits
decide the order within a half. -/
theorem encodingInjectiveAndIncreasingInEachHalf : Obligations.EncodingInjectiveAndIncreasingInEachHalf := by
  refine ⟨fun a b v ha hb => ?_, fun v w r hv hw => ?_, fun a b v w ha hb half => ?_⟩
  · rw [transact_encode_ok_iff_decode_ok] at ha hb
    exact Response.ok.inj (ha.symm.trans hb)
  · rw [← transact_encode_ok_iff_decode_ok] at hv hw
    exact Response.ok.inj (hv.symm.trans hw)
  · obtain ⟨validA, rfl⟩ := transact_encode_eq_ok_iff.1 ha
    obtain ⟨validB, rfl⟩ := transact_encode_eq_ok_iff.1 hb
    exact encodedValue_toNat_lt_iff validA validB half

end Sys2Proof.Machine

/-! PROOFS. The register view (spec/10_state.md R28): a command's next state by its transaction-level response, and the
invariant of the registers (spec/70_reset_and_hazards.md R172), which a reset and a command establish and an idle edge
keeps. -/

namespace Sys2Proof.Machine

theorem codeOk_ne_reserved : codeOk ≠ 0b11#2 := by decide

theorem FailKind.code_ne_reserved (k : FailKind) : k.code ≠ 0b11#2 := by cases k <;> decide

theorem FailKind.code_inj {k l : FailKind} : k.code = l.code ↔ k = l := by cases k <;> cases l <;> decide

section ExecInversion
variable {i : Instr} {s t : State} {k : FailKind} {v : Word64}

/-- Inversion of a command: by its response it is a success with that result, or that failure. -/
theorem exec_cases (run : exec i s = .next t) :
    (∃ b v, transact i = .ok v ∧ t = s.succeed b v) ∨ (∃ k, transact i = .fail k ∧ t = s.failWith k) := by
  obtain rfl := Host.Outcome.next.inj ((exec_eq i s).symm.trans run)
  obtain ⟨b, v, hc, ht⟩ | ⟨k, hc, ht⟩ := State.complete_cases (completionOf i) s
  · exact .inl ⟨b, v, congrArg Completion.response hc, ht⟩
  · exact .inr ⟨k, congrArg Completion.response hc, ht⟩

theorem exec_status_eq_code_iff (run : exec i s = .next t) : t.status = k.code ↔ transact i = .fail k := by
  obtain ⟨b, v, h, rfl⟩ | ⟨l, h, rfl⟩ := exec_cases run
  · simp [h, (FailKind.code_ne_codeOk k).symm]
  · simp [h, FailKind.code_inj]

theorem exec_status_eq_codeOk_iff (run : exec i s = .next t) : t.status = codeOk ↔ ∃ v, transact i = .ok v := by
  obtain ⟨b, v, h, rfl⟩ | ⟨l, h, rfl⟩ := exec_cases run <;> simp [h]

theorem exec_registers_of_ok (run : exec i s = .next t) (h : transact i = .ok v) :
    t.status = codeOk ∧ t.result = v ∧ t.nextDraw = s.nextDraw := by
  obtain ⟨b, w, h', rfl⟩ | ⟨l, h', rfl⟩ := exec_cases run
  · exact ⟨rfl, Response.ok.inj (h'.symm.trans h), rfl⟩
  · simp [h] at h'

end ExecInversion

/-- Settles O16: the response on the ports is the completion's, and each response has one register image. -/
theorem registerViewIsTheResponse : Obligations.RegisterViewIsTheResponse := by
  intro i s
  have run := exec_eq i s
  refine ⟨_, run, State.complete_done _ s, State.complete_response _ s, fun v ok => ?_,
    (exec_status_eq_code_iff run).2, (exec_status_eq_code_iff run).2⟩
  obtain ⟨status, result, -⟩ := exec_registers_of_ok run ok
  exact ⟨status, result⟩

/-- Settles O21, by whether the command succeeds. -/
theorem commandFrame : Obligations.CommandFrame := by
  intro i s t run
  obtain ⟨b, v, -, rfl⟩ | ⟨k, -, rfl⟩ := exec_cases run
  · exact ⟨rfl, rfl, codeOk_ne_reserved, fun _ => rfl⟩
  · exact ⟨rfl, rfl, FailKind.code_ne_reserved k, fun ok => absurd ok (FailKind.code_ne_codeOk k)⟩

/-- A step moves the index of the draws by two or not at all. -/
theorem step_nextDraw {s t : State} (h : step s = .next t) :
    t.nextDraw = s.nextDraw ∨ t.nextDraw = s.nextDraw + 2 := by
  obtain ⟨-, rfl⟩ | ⟨-, -, rfl⟩ | ⟨-, -, rfl⟩ := step_cases h
  · exact .inr rfl
  · obtain ⟨b, v, -, ht⟩ | ⟨k, -, ht⟩ := exec_cases (exec_eq (decodeWord s.nextPins.commandWord) s.advance)
    · exact .inl (by rw [ht, State.succeed_nextDraw, State.advance_nextDraw])
    · exact .inr (by rw [ht, State.failWith_nextDraw, State.advance_nextDraw])
  · exact .inl rfl

/-- Settles O22: only `State.failWith` and the reset edge take draws, each two. -/
theorem drawsAreFreshStreamEntries : Obligations.DrawsAreFreshStreamEntries := by
  refine ⟨fun i s k fails => ?_, fun s p ps pending hr => ?_, fun i s v ok => ?_, fun s p ps pending hr hv => ?_,
    fun s t => step_nextDraw⟩
  · exact ⟨_, exec_of_transact_fail fails s, rfl, rfl, rfl⟩
  · exact ⟨_, step_of_reset pending hr, rfl, rfl, rfl⟩
  · obtain ⟨-, -, draws⟩ := exec_registers_of_ok (exec_eq i s) ok
    exact ⟨_, exec_eq i s, draws⟩
  · exact ⟨_, step_of_idle pending hr hv, rfl⟩

section Coherence

/-- The identifier `DECODE` reconstructs is that of the one-line layout (spec/30_encoding.md R65). -/
theorem decodedIdentifier_eq_identOf (v : Word64) : decodedIdentifier v = identOf v := by
  apply BitVec.eq_of_getLsbD_eq
  intro i hi
  rw [decodedIdentifier_getLsbD v hi, identOf_getLsbD v hi]

theorem decodedResult_eq_identOf (v : Word64) : decodedResult v = (identOf v).setWidth 64 := by
  rw [decodedResult, decodedIdentifier_eq_identOf]

/-- A success leaves a quiet-NaN pattern in the buffer, and as the result that pattern or its identifier (R84, R105). -/
theorem completionOf_eq_ok {i : Instr} {b r : Word64} (h : completionOf i = .ok b r) :
    QuietPattern b ∧ (r = b ∨ r = (identOf b).setWidth 64) := by
  cases i with
  | encode opnd =>
    by_cases valid : ValidIdentifier opnd
    · rw [completionOf, encodeCompletion_of_valid valid] at h
      obtain ⟨rfl, rfl⟩ := Completion.ok.inj h
      exact ⟨encodedValue_quietPattern opnd, .inl rfl⟩
    · rw [completionOf, encodeCompletion_of_not_valid valid] at h
      cases h
  | encodeNai => cases h
  | decode v =>
    have accepted : transact (.decode v) = .ok r := congrArg Completion.response h
    obtain ⟨quiet, rfl⟩ := transact_decode_eq_ok_iff.1 accepted
    rw [completionOf, decodeCompletion_of_quiet quiet] at h
    obtain ⟨rfl, -⟩ := Completion.ok.inj h
    exact ⟨quiet, .inr (decodedResult_eq_identOf v)⟩

/-- While no response is valid, only the reserved code makes the registers incoherent. -/
theorem registersCoherent_of_not_done {s : State} (done : s.done = false) (status : s.status ≠ 0b11#2) :
    RegistersCoherent s :=
  ⟨status, fun h => absurd (done.symm.trans h) Bool.false_ne_true⟩

/-- A command makes the registers coherent, whatever they held. -/
theorem registersCoherent_complete (i : Instr) (s : State) : RegistersCoherent (s.complete (completionOf i)) := by
  obtain ⟨b, r, hc, ht⟩ | ⟨k, -, ht⟩ := State.complete_cases (completionOf i) s
  · rw [ht]
    exact ⟨codeOk_ne_reserved, fun _ _ => completionOf_eq_ok hc⟩
  · rw [ht]
    exact ⟨FailKind.code_ne_reserved k, fun _ ok => absurd ok (FailKind.code_ne_codeOk k)⟩

/-- A reset makes the registers coherent, whatever they held. -/
theorem registersCoherent_resetEdge (s : State) : RegistersCoherent s.resetEdge :=
  registersCoherent_of_not_done rfl codeOk_ne_reserved

end Coherence

/-- Settles O36: a reset and a command make the registers coherent, and an idle edge clears `DONE` and keeps `STATUS`. -/
theorem stepKeepsRegistersCoherent : Obligations.StepKeepsRegistersCoherent := by
  intro s t coherent h
  obtain ⟨-, rfl⟩ | ⟨-, -, rfl⟩ | ⟨-, -, rfl⟩ := step_cases h
  · exact registersCoherent_resetEdge _
  · exact registersCoherent_complete _ _
  · exact registersCoherent_of_not_done rfl coherent.1

/-- Settles O37: no response is valid after reset, and `STATUS` is `OK`. -/
theorem resetIsCoherent : Obligations.ResetIsCoherent := registersCoherent_of_not_done rfl codeOk_ne_reserved

/-- Settles O38: the edge is not idle, so it makes the registers coherent; the response is that of every step. -/
theorem firstResetOrCommandMakesCoherent : Obligations.FirstResetOrCommandMakesCoherent := by
  intro s t p ps pending presented h
  refine ⟨?_, State.nextPins_of_pending pending ▸ step_response h⟩
  rw [← State.nextPins_of_pending pending] at presented
  obtain ⟨-, rfl⟩ | ⟨-, -, rfl⟩ | ⟨hr, hv, -⟩ := step_cases h
  · exact registersCoherent_resetEdge _
  · exact registersCoherent_complete _ _
  · simp [hr, hv] at presented

end Sys2Proof.Machine

/-! PROOFS. The outcomes by the bits of the operand: ENCODE's two (spec/40_encode.md R81, R84), DECODE's three by the
class of the pattern (spec/41_decode.md R101 to R106), and the outcome table (spec/60_exceptions.md R141, R142, R144). -/

namespace Sys2Proof.Machine

/-- The encoded value in one line (spec/30_encoding.md R65). -/
theorem encodedValue_eq_layoutOf (opnd : Word64) : encodedValue opnd = layoutOf (opnd.setWidth 52) := by
  apply BitVec.eq_of_getLsbD_eq
  intro i hi
  rw [encodedValue_getLsbD opnd hi, layoutOf_getLsbD _ hi, BitVec.getLsbD_setWidth, BitVec.getLsbD_setWidth]
  by_cases payload : i < 51
  · simp [payload, show i < 52 by omega]
  · simp [payload]

/-- The same line, its fields taken from the operand itself. -/
theorem encodedValue_eq_append (opnd : Word64) :
    encodedValue opnd = opnd.extractLsb' 51 1 ++ (0x7FF#11 ++ (1#1 ++ opnd.extractLsb' 0 51)) := by
  have sign : (opnd.setWidth 52).extractLsb' 51 1 = opnd.extractLsb' 51 1 := by
    apply BitVec.eq_of_getLsbD_eq
    intro i hi
    obtain rfl : i = 0 := by omega
    simp
  have payload : (opnd.setWidth 52).extractLsb' 0 51 = opnd.extractLsb' 0 51 := by
    apply BitVec.eq_of_getLsbD_eq
    intro i hi
    simp [hi, show i < 52 by omega]
  rw [encodedValue_eq_layoutOf, layoutOf, sign, payload]

/-- Settles O7: the response of `ENCODE` is never `InvalidType`, and which of the two others it is depends on whether
the operand is an identifier, by its bits or as a signed integer. -/
theorem encodeRangeCheck : Obligations.EncodeRangeCheck := by
  intro opnd s
  have run := exec_eq (.encode opnd) s
  refine ⟨⟨_, run, ?_, ?_, ?_⟩, validIdentifier_iff_range.symm⟩
  · exact (exec_status_eq_code_iff (k := .invalidType) run).not.2 transact_encode_ne_invalidType
  · exact (exec_status_eq_codeOk_iff run).trans
      (exists_transact_encode_eq_ok_iff.trans validIdentifier_iff_range)
  · refine (exec_status_eq_code_iff (k := .outOfRange) run).trans ?_
    rw [transact_encode_eq_outOfRange_iff, validIdentifier_iff_range]
    omega

/-- Settles O8: the encoded value is the mask-and-shift pattern by definition. -/
theorem encodeSuccess : Obligations.EncodeSuccess := by
  intro opnd s valid
  exact ⟨encodedValue opnd, rfl, encodedValue_eq_append opnd, exec_encode_of_valid s valid⟩

section DecodeClasses
variable {v : Word64}

/-- The NaN test by the two fields it reads (R101). -/
theorem isNaN64_iff : isNaN64 v = true ↔ v.extractLsb' 52 11 = 0x7FF#11 ∧ v.extractLsb' 0 52 ≠ 0#52 := by
  simp [isNaN64, exponentField, mantissaField, expAllOnes]

theorem not_isNaN64_iff : ¬ isNaN64 v = true ↔ v.extractLsb' 52 11 ≠ 0x7FF#11 ∨ v.extractLsb' 0 52 = 0#52 := by
  rw [isNaN64_iff, not_and_or, not_not]

/-- With the exponent all ones, the quiet bit decides (R103). -/
theorem not_quietPattern_iff (exponent : v.extractLsb' 52 11 = 0x7FF#11) :
    ¬ QuietPattern v ↔ v.getLsbD 51 = false := by
  rw [QuietPattern, and_iff_right exponent, Bool.not_eq_true]

/-- A mantissa with a bit set below the quiet bit is not zero. -/
theorem mantissa_ne_zero_of_payload (h : v.extractLsb' 0 51 ≠ 0#51) : v.extractLsb' 0 52 ≠ 0#52 := by
  rw [Ne, extractLsb'_eq_zero_iff] at h ⊢
  exact fun zero => h fun i hi => zero i (by omega)

/-- A signalling pattern is a NaN without the quiet bit (R126). -/
theorem isNaN64_of_signalling (exponent : v.extractLsb' 52 11 = 0x7FF#11) (payload : v.extractLsb' 0 51 ≠ 0#51) :
    isNaN64 v = true :=
  isNaN64_iff.2 ⟨exponent, mantissa_ne_zero_of_payload payload⟩

/-- DECODE's response by the fields: not a NaN. -/
theorem transact_decode_of_not_nan (h : v.extractLsb' 52 11 ≠ 0x7FF#11 ∨ v.extractLsb' 0 52 = 0#52) :
    transact (.decode v) = .fail .invalidType :=
  transact_decode_eq_invalidType_iff.2 (not_isNaN64_iff.2 h)

/-- DECODE's response by the fields: a signalling pattern. -/
theorem transact_decode_of_signalling (exponent : v.extractLsb' 52 11 = 0x7FF#11) (quiet : v.getLsbD 51 = false)
    (payload : v.extractLsb' 0 51 ≠ 0#51) : transact (.decode v) = .fail .outOfRange :=
  transact_decode_eq_outOfRange_iff.2
    ⟨isNaN64_of_signalling exponent payload, (not_quietPattern_iff exponent).2 quiet⟩

/-- DECODE's response by the fields: a quiet pattern. -/
theorem transact_decode_of_quiet (h : QuietPattern v) : transact (.decode v) = .ok ((identOf v).setWidth 64) :=
  transact_decode_eq_ok_iff.2 ⟨h, decodedResult_eq_identOf v⟩

end DecodeClasses

/-- Settles O12: the operand is no NaN, and such a `DECODE` fails with `InvalidType`. -/
theorem decodeNotNaN : Obligations.DecodeNotNaN :=
  fun _ s h => ⟨_, _, _, exec_of_transact_fail (transact_decode_of_not_nan h) s⟩

/-- Settles O13: with the exponent all ones the mask test asks for the quiet bit alone. -/
theorem decodeMaskCheck : Obligations.DecodeMaskCheck := by
  intro v s exponent mantissa
  have mask : (v.extractLsb' 32 32 &&& 0x7FF80000#32) = 0x7FF80000#32 ↔ QuietPattern v :=
    beq_iff_eq.symm.trans (maskCheck_iff v)
  refine ⟨mask.not.trans (not_quietPattern_iff exponent), fun signalling => ?_, fun quiet => ?_⟩
  · have fails : transact (.decode v) = .fail .outOfRange :=
      transact_decode_eq_outOfRange_iff.2
        ⟨isNaN64_iff.2 ⟨exponent, mantissa⟩, (not_quietPattern_iff exponent).2 signalling⟩
    exact ⟨_, _, _, exec_of_transact_fail fails s⟩
  · exact ⟨_, exec_decode_of_quiet s ⟨exponent, quiet⟩, rfl⟩

/-- R104: under the mask, which keeps bit 19, the logical and the arithmetic shift by 12 agree: both bring bit 31. -/
theorem ushiftRight_and_maskB19 (w : Word32) :
    (w >>> signShift) &&& maskB19 = w.sshiftRight signShift &&& maskB19 := by
  apply BitVec.eq_of_getLsbD_eq
  intro i hi
  rw [BitVec.getLsbD_and, BitVec.getLsbD_and, maskB19_getLsbD hi, BitVec.getLsbD_ushiftRight,
    BitVec.getLsbD_sshiftRight, signShift]
  by_cases bit19 : i = 19
  · subst bit19
    simp
  · simp [bit19]

/-- Settles O14: the decoded identifier is the mask-and-shift one by definition, read as the low 20 bits of `H32`. -/
theorem decodeSuccess : Obligations.DecodeSuccess := by
  intro v s exponent quiet
  refine ⟨highWord v, _, decodedIdentifier v, rfl, rfl, ?_, ?_, decodedIdentifier_eq_identOf v,
    exec_decode_of_quiet s ⟨exponent, quiet⟩⟩
  · exact congrArg (_ ||| ·) (ushiftRight_and_maskB19 (highWord v))
  · rw [decodedIdentifier, reconstructHighPart, BitVec.setWidth_eq_extractLsb' (by decide)]
    rfl

section Classify
variable {v : Word64}

theorem classify_of_finite (exponent : v.extractLsb' 52 11 ≠ 0x7FF#11) : classify v = .finite := by
  simp [classify, exponentField, expAllOnes, exponent]

theorem classify_of_infinity (exponent : v.extractLsb' 52 11 = 0x7FF#11) (mantissa : v.extractLsb' 0 52 = 0#52) :
    classify v = .infinity (v.getLsbD 63) := by
  simp [classify, exponentField, mantissaField, expAllOnes, exponent, mantissa]

theorem classify_of_nan (nan : isNaN64 v = true) :
    classify v = if v.getLsbD 51 then .quietNaN else .signallingNaN := by
  obtain ⟨exponent, mantissa⟩ := isNaN64_iff.1 nan
  simp [classify, exponentField, mantissaField, quietBit, expAllOnes, exponent, mantissa]

end Classify

/-- Settles O15: the fields that give the class give the response. -/
theorem decodeByClass : Obligations.DecodeByClass := by
  intro v s
  have response := State.complete_response (completionOf (.decode v)) s
  refine ⟨_, exec_eq _ s, fun exponent => ⟨classify_of_finite exponent, response.trans ?finite⟩,
    fun exponent mantissa => ⟨classify_of_infinity exponent mantissa, response.trans ?infinity⟩,
    fun exponent quiet payload => ⟨?signallingClass, response.trans ?signalling⟩,
    fun exponent quiet => ⟨?quietClass, response.trans ?quiet⟩⟩
  case finite => exact congrArg some (transact_decode_of_not_nan (.inl exponent))
  case infinity => exact congrArg some (transact_decode_of_not_nan (.inr mantissa))
  case signallingClass => rw [classify_of_nan (isNaN64_of_signalling exponent payload), quiet]; rfl
  case signalling => exact congrArg some (transact_decode_of_signalling exponent quiet payload)
  case quietClass => rw [classify_of_nan (isNaN64_of_quietPattern ⟨exponent, quiet⟩), if_pos quiet]
  case quiet => exact congrArg some (transact_decode_of_quiet ⟨exponent, quiet⟩)

/-- Settles O17: each row is a response by the fields of the operand, and `STATUS` and `RESULT` are its image. -/
theorem outcomeTable : Obligations.OutcomeTable := by
  intro opnd s
  have encodes := exec_eq (.encode opnd) s
  have decodes := exec_eq (.decode opnd) s
  refine ⟨_, _, _, encodes, exec_encodeNai s, decodes, fun valid => ?encodeOk, fun invalid => ?encodeFail, rfl,
    fun exponent => ?finite, fun _ mantissa => ?infinity,
    fun exponent quiet payload => ?signalling, fun exponent quiet => ?quiet⟩
  case encodeOk =>
    obtain ⟨status, result, -⟩ := exec_registers_of_ok encodes (transact_encode_eq_ok_iff.2 ⟨valid, rfl⟩)
    exact ⟨status, result.trans (encodedValue_eq_append opnd)⟩
  case encodeFail =>
    exact (exec_status_eq_code_iff (k := .outOfRange) encodes).2 (transact_encode_eq_outOfRange_iff.2 invalid)
  case finite =>
    exact (exec_status_eq_code_iff (k := .invalidType) decodes).2 (transact_decode_of_not_nan (.inl exponent))
  case infinity =>
    exact (exec_status_eq_code_iff (k := .invalidType) decodes).2 (transact_decode_of_not_nan (.inr mantissa))
  case signalling =>
    exact (exec_status_eq_code_iff (k := .outOfRange) decodes).2
      (transact_decode_of_signalling exponent quiet payload)
  case quiet =>
    obtain ⟨status, result, -⟩ := exec_registers_of_ok decodes (transact_decode_of_quiet ⟨exponent, quiet⟩)
    exact ⟨status, result⟩

/-- Settles O18, by the command: its response is `InvalidType` always, exactly on what is no NaN, or never. -/
theorem invalidTypeRaisedBy : Obligations.InvalidTypeRaisedBy := by
  intro i s t run
  refine (exec_status_eq_code_iff (k := .invalidType) run).trans ?_
  cases i with
  | encode opnd => simp [transact_encode_ne_invalidType]
  | encodeNai => simp [transact_encodeNai]
  | decode v => rw [transact_decode_eq_invalidType_iff, isNaN64_iff]; simp

/-- Settles O19, by the command: its response is `OutOfRange` exactly on what is no identifier, never, or exactly on
a NaN without the quiet bit. -/
theorem outOfRangeRaisedBy : Obligations.OutOfRangeRaisedBy := by
  intro i s t run
  refine (exec_status_eq_code_iff (k := .outOfRange) run).trans ?_
  cases i with
  | encode opnd => simp [transact_encode_eq_outOfRange_iff, ValidIdentifier]
  | encodeNai => simp [transact_encodeNai]
  | decode v =>
    have signalling : isNaN64 v = true ∧ ¬ QuietPattern v ↔
        v.extractLsb' 52 11 = 0x7FF#11 ∧ v.extractLsb' 0 52 ≠ 0#52 ∧ v.getLsbD 51 = false := by
      rw [isNaN64_iff, and_assoc]
      exact and_congr_right fun exponent => and_congr_right fun _ => not_quietPattern_iff exponent
    rw [transact_decode_eq_outOfRange_iff, signalling]
    simp

section Caller
variable {id : Int}

/-- An integer the port can carry is an identifier exactly in R81's range. -/
theorem validIdentifier_ofInt_iff (port : -(2 ^ 63) ≤ id ∧ id < 2 ^ 63) :
    ValidIdentifier (BitVec.ofInt 64 id) ↔ 0 ≤ id ∧ id ≤ 4503599627370495 := by
  rw [validIdentifier_iff_range, BitVec.toInt_ofInt_eq_self (by decide) port.1 port.2]

/-- What a caller gets for an integer the port can carry. -/
theorem response_encode_of_presentable (port : -(2 ^ 63) ≤ id ∧ id < 2 ^ 63) :
    (Call.encode id).response = transact (.encode (BitVec.ofInt 64 id)) := by
  rw [Call.response, Call.present, presentable, decide_eq_true port, if_pos rfl]

/-- What a caller gets for an integer the port cannot carry: the host's own answer (log 9). -/
theorem response_encode_of_not_presentable (port : ¬ (-(2 ^ 63) ≤ id ∧ id < 2 ^ 63)) :
    (Call.encode id).response = .fail .outOfRange := by
  rw [Call.response, Call.present, presentable, decide_eq_false port, if_neg Bool.false_ne_true]

/-- The pattern of an identifier, as the layout of the integer's 52 bits (R65). -/
theorem encodedValue_ofInt (nonneg : 0 ≤ id) : encodedValue (BitVec.ofInt 64 id) = layoutOf (BitVec.ofInt 52 id) := by
  obtain ⟨n, rfl⟩ := Int.eq_ofNat_of_zero_le nonneg
  rw [encodedValue_eq_layoutOf, BitVec.ofInt_natCast, BitVec.ofInt_natCast, BitVec.setWidth_ofNat_of_le (by decide)]

/-- What a caller gets for an integer out of range, whether the port can carry it or not. -/
theorem response_encode_of_out_of_range (range : id < 0 ∨ id > 4503599627370495) :
    (Call.encode id).response = .fail .outOfRange := by
  by_cases port : -(2 ^ 63) ≤ id ∧ id < 2 ^ 63
  · rw [response_encode_of_presentable port, transact_encode_eq_outOfRange_iff, validIdentifier_ofInt_iff port]
    omega
  · exact response_encode_of_not_presentable port

end Caller

/-- Settles O35: an integer in range is an identifier, whose pattern `DECODE` turns back; out of range every integer
gets what -1 gets; and a caller's decode is `DECODE`. -/
theorem callerContract : Obligations.CallerContract := by
  refine ⟨fun id low high => ?_, fun id range => ?_, rfl, fun v => transact_decode_of_not_nan,
    fun v => transact_decode_of_signalling, fun v exponent quiet => transact_decode_of_quiet ⟨exponent, quiet⟩⟩
  · have port : -(2 ^ 63) ≤ id ∧ id < 2 ^ 63 := by omega
    have encodes : transact (.encode (BitVec.ofInt 64 id)) = .ok (layoutOf (BitVec.ofInt 52 id)) :=
      transact_encode_eq_ok_iff.2 ⟨(validIdentifier_ofInt_iff port).2 ⟨low, high⟩, encodedValue_ofInt low⟩
    exact ⟨(response_encode_of_presentable port).trans encodes, transact_encode_ok_iff_decode_ok.1 encodes⟩
  · have minusOne := response_encode_of_out_of_range (id := -1) (by omega)
    rw [response_encode_of_presentable (by omega)] at minusOne
    rw [response_encode_of_out_of_range range, minusOne]
    exact ⟨rfl, rfl⟩

end Sys2Proof.Machine

/-! PROOFS. The census of the operands (spec/42_laws.md R131). Each class is a range of `v[62:0]` as a number: the quiet
patterns from 0x7FF8000000000000 up, the NaNs from 0x7FF0000000000001 up; and a sign bit doubles the count. -/

namespace Sys2Proof.Machine

/-- The words whose number has a property, counted by the numbers below 2^64. -/
theorem ncard_words_eq_count (p : Nat → Prop) [DecidablePred p] :
    {v : Word64 | p v.toNat}.ncard = Nat.count p (2 ^ 64) := by
  have numbers : BitVec.toNat '' {v : Word64 | p v.toNat} = ((Finset.range (2 ^ 64)).filter p : Set Nat) := by
    ext n
    simp only [Set.mem_image, Set.mem_ofPred_eq, Finset.coe_filter, Finset.mem_range]
    constructor
    · rintro ⟨v, hv, rfl⟩
      exact ⟨v.isLt, hv⟩
    · rintro ⟨hn, hp⟩
      have same : (BitVec.ofNat 64 n).toNat = n := Nat.mod_eq_of_lt hn
      exact ⟨BitVec.ofNat 64 n, same.symm ▸ hp, same⟩
  rw [← Set.ncard_image_of_injective _ BitVec.toNat_injective, numbers, Set.ncard_coe_finset,
    Nat.count_eq_card_filter_range]

/-- The numbers from `a` on, counted below `a + b`. -/
theorem count_ge (a b : Nat) : Nat.count (a ≤ ·) (a + b) = b := by
  have below : Nat.count (a ≤ ·) a = 0 := Nat.count_iff_forall_not.2 fun m hm => Nat.not_le.2 hm
  have above : Nat.count (fun k => a ≤ a + k) b = b := Nat.count_iff_forall.2 fun k _ => Nat.le_add_right a k
  rw [Nat.count_add, below, above, Nat.zero_add]

/-- The numbers whose rest is from `a` on, counted below twice the modulus. -/
theorem count_mod_ge (a b : Nat) : Nat.count (fun k => a ≤ k % (a + b)) ((a + b) + (a + b)) = 2 * b := by
  have once : Nat.count (fun k => a ≤ k % (a + b)) (a + b) = b := by
    refine Eq.trans ?_ (count_ge a b)
    rw [Nat.count_eq_card_filter_range, Nat.count_eq_card_filter_range]
    refine congrArg Finset.card (Finset.filter_congr fun k hk => ?_)
    rw [Nat.mod_eq_of_lt (Finset.mem_range.1 hk)]
  simp only [Nat.count_add _ (a + b) (a + b), Nat.add_mod_left, once]
  omega

/-- The words whose bits 62..0 are a number from `a` on. -/
theorem ncard_rest_ge {a b : Nat} (h : a + b = 2 ^ 63) : {v : Word64 | a ≤ v.toNat % 2 ^ 63}.ncard = 2 * b := by
  rw [ncard_words_eq_count (fun n => a ≤ n % 2 ^ 63), show 2 ^ 64 = 2 ^ 63 + 2 ^ 63 from rfl, ← h, count_mod_ge]

/-- The words that are a number from `a` on. -/
theorem ncard_ge {a b : Nat} (h : a + b = 2 ^ 64) : {v : Word64 | a ≤ v.toNat}.ncard = b := by
  rw [ncard_words_eq_count (a ≤ ·), ← h, count_ge]

/-- Of the 2^64 words a class and its complement are all. -/
theorem ncard_add_ncard_compl_word (s : Set Word64) : s.ncard + sᶜ.ncard = 2 ^ 64 := by
  rw [Set.ncard_add_ncard_compl, Nat.card_congr BitVec.equivFin.toEquiv, Nat.card_fin]

section Ranges
variable {v : Word64}

theorem quietPattern_iff_toNat : QuietPattern v ↔ 0x7FF8000000000000 ≤ v.toNat % 2 ^ 63 := by
  rw [QuietPattern, ← BitVec.toNat_inj, ← BitVec.testBit_toNat, Nat.testBit_eq_decide_div_mod_eq, decide_eq_true_iff]
  simp only [BitVec.extractLsb'_toNat, Nat.shiftRight_eq_div_pow, BitVec.toNat_ofNat]
  omega

theorem isNaN64_iff_toNat : isNaN64 v = true ↔ 0x7FF0000000000001 ≤ v.toNat % 2 ^ 63 := by
  rw [isNaN64_iff, Ne, ← BitVec.toNat_inj, ← BitVec.toNat_inj]
  simp only [BitVec.extractLsb'_toNat, Nat.shiftRight_eq_div_pow, BitVec.toNat_ofNat]
  omega

theorem not_validIdentifier_iff_toNat : ¬ ValidIdentifier v ↔ 2 ^ 52 ≤ v.toNat := by
  rw [ValidIdentifier, ← BitVec.toNat_inj]
  simp only [BitVec.extractLsb'_toNat, Nat.shiftRight_eq_div_pow, BitVec.toNat_ofNat]
  omega

end Ranges

theorem ncard_quietPattern : {v | QuietPattern v}.ncard = 2 ^ 52 := by
  simp only [quietPattern_iff_toNat]
  exact ncard_rest_ge (b := 2 ^ 51) rfl

theorem ncard_isNaN64 : {v | isNaN64 v = true}.ncard = 2 ^ 53 - 2 := by
  simp only [isNaN64_iff_toNat]
  exact ncard_rest_ge (b := 2 ^ 52 - 1) rfl

theorem ncard_not_validIdentifier : {v | ¬ ValidIdentifier v}.ncard = 2 ^ 64 - 2 ^ 52 := by
  simp only [not_validIdentifier_iff_toNat]
  exact ncard_ge rfl

/-- The NaNs that are not quiet: all NaNs but the quiet patterns. -/
theorem ncard_signalling : {v | isNaN64 v = true ∧ ¬ QuietPattern v}.ncard = 2 ^ 52 - 2 := by
  have subset : {v | QuietPattern v} ⊆ {v | isNaN64 v = true} := fun _ => isNaN64_of_quietPattern
  have sum := Set.ncard_sdiff_add_ncard_of_subset subset (Set.toFinite _)
  rw [ncard_quietPattern, ncard_isNaN64] at sum
  exact Nat.add_right_cancel (sum.trans (by decide : 2 ^ 53 - 2 = 2 ^ 52 - 2 + 2 ^ 52))

theorem ncard_not_isNaN64 : {v | ¬ isNaN64 v = true}.ncard = 2 ^ 64 - (2 ^ 53 - 2) := by
  have sum := ncard_add_ncard_compl_word {v | isNaN64 v = true}
  rw [ncard_isNaN64] at sum
  exact Nat.eq_sub_of_add_eq' sum

theorem ncard_validIdentifier : {v | ValidIdentifier v}.ncard = 2 ^ 52 := by
  have sum := ncard_add_ncard_compl_word {v | ValidIdentifier v}
  have invalid : {v | ValidIdentifier v}ᶜ.ncard = 2 ^ 64 - 2 ^ 52 := ncard_not_validIdentifier
  omega

/-- Settles O34: each response is given to one class of operands, and the classes are counted above. -/
theorem census : Obligations.Census := by
  unfold Obligations.Census
  simp only [exists_transact_decode_eq_ok_iff, transact_decode_eq_outOfRange_iff, transact_decode_eq_invalidType_iff,
    exists_transact_encode_eq_ok_iff, transact_encode_eq_outOfRange_iff]
  exact ⟨ncard_quietPattern, ncard_signalling, ncard_not_isNaN64, ncard_validIdentifier, ncard_not_validIdentifier⟩

end Sys2Proof.Machine

/-! PROOFS. The assembler (spec/30_encoding.md R68, R69): the edge of a well-formed line by its three fields, the
operand digit by digit, and a written value read back from a `DECODE` line. -/

namespace Sys2Proof.Machine

section Operand

/-- Bit `j` of the digit at place `k`, counted from the right, is bit `4 * k + j` of the number. -/
theorem hexValue_testBit (digits : List (BitVec 4)) (k : Nat) {j : Nat} (hj : j < 4) :
    (digits.foldl (fun n (d : BitVec 4) => 16 * n + d.toNat) 0).testBit (4 * k + j) =
      (digits.reverse.getD k 0#4).getLsbD j := by
  induction digits using List.reverseRecOn generalizing k with
  | nil => simp
  | append_singleton ds d ih =>
    rw [hexValue_concat, List.reverse_append]
    refine (Nat.testBit_two_pow_mul_add (i := 4) _ d.isLt _).trans ?_
    cases k with
    | zero =>
      rw [if_pos (by omega), BitVec.testBit_toNat, Nat.mul_zero, Nat.zero_add]
      rfl
    | succ k =>
      rw [if_neg (by omega), show 4 * (k + 1) + j - 4 = 4 * k + j by omega, ih k]
      rfl

/-- The 16 digits of a hexadecimal operand: those written, and zeros on the left. -/
theorem extractLsb'_hexOperand (digits : List (BitVec 4)) {k : Nat} (hk : k < 16) :
    (hexOperand digits).extractLsb' (4 * k) 4 = digits.reverse.getD k 0#4 := by
  apply BitVec.eq_of_getLsbD_eq
  intro j hj
  rw [BitVec.getLsbD_extractLsb', hexOperand, BitVec.getLsbD_ofNat, hexValue_testBit digits k hj]
  simp [hj, show 4 * k + j < 64 by omega]

/-- Words with the same 16 digits are equal. -/
theorem eq_of_digits_eq {v w : Word64} (h : ∀ k < 16, v.extractLsb' (4 * k) 4 = w.extractLsb' (4 * k) 4) : v = w := by
  apply BitVec.eq_of_getLsbD_eq
  intro i hi
  have bit := congrArg (fun d => d.getLsbD (i % 4)) (h (i / 4) (by omega))
  simpa [Nat.mod_lt, Nat.div_add_mod] using bit

end Operand

section Lines
variable {l : AsmLine}

theorem assemble_of_wellFormed (h : l.wellFormed = true) : l.assemble = some l.pins := if_pos h

theorem assemble_of_not_wellFormed (h : l.wellFormed = false) : l.assemble = none :=
  if_neg (Bool.eq_false_iff.1 h)

/-- R61's three fields as the two top bits and the operand. -/
theorem commandWordOf_eq_top (op nai : Bool) (v : Word64) :
    commandWordOf op nai v = (BitVec.ofBool op ++ BitVec.ofBool nai) ++ v := by
  rw [eq_comm, top_append_eq_iff, commandWordOf, opField_fields, naiField_fields, opndField_fields]
  exact ⟨rfl, rfl⟩

/-- The word on the pins of a command line. -/
theorem commandWord_of_fields (op nai : Bool) (v : Word64) :
    (Pins.command (commandWordOf op nai v)).commandWord = (BitVec.ofBool op ++ BitVec.ofBool nai) ++ v :=
  (Pins.commandWord_command _).trans (commandWordOf_eq_top op nai v)

/-- The command on the pins of a command line. -/
theorem decodeWord_of_fields (op nai : Bool) (v : Word64) :
    decodeWord (Pins.command (commandWordOf op nai v)).commandWord =
      if op then .decode v else if nai then .encodeNai else .encode v := by
  rw [Pins.commandWord_command]
  exact decodeWord_fields op nai v

end Lines

/-- Settles O43: a line is assembled exactly when its operand is well formed, and its edge carries the fields of its
form and the operand written. -/
theorem assemblerLines : Obligations.AssemblerLines := by
  refine ⟨fun id low high => ?integer, fun id range => ?notPresentable, fun digits one sixteen => ?digits,
    fun digits len => ?notDigits, ?encodeNai, ⟨_, rfl, rfl, rfl⟩, ⟨_, rfl, rfl⟩⟩
  case integer =>
    exact ⟨_, BitVec.ofInt 64 id, assemble_of_wellFormed (decide_eq_true ⟨low, high⟩), rfl, rfl,
      commandWord_of_fields false false _, decodeWord_of_fields false false _,
      BitVec.toInt_ofInt_eq_self (by decide) low high⟩
  case notPresentable => exact assemble_of_not_wellFormed (decide_eq_false (by omega))
  case digits =>
    have ok : hexOperandOk digits = true := decide_eq_true ⟨one, sixteen⟩
    exact ⟨hexOperand digits, _, _, _, _, fun k hk => extractLsb'_hexOperand digits hk,
      assemble_of_wellFormed ok, assemble_of_wellFormed ok, assemble_of_wellFormed ok, assemble_of_wellFormed ok,
      by simp [AsmLine.pins], commandWord_of_fields false false _, decodeWord_of_fields false false _,
      commandWord_of_fields false true _, decodeWord_of_fields false true _,
      commandWord_of_fields true false _, decodeWord_of_fields true false _,
      commandWord_of_fields true true _, decodeWord_of_fields true true _⟩
  case notDigits =>
    have bad : hexOperandOk digits = false := decide_eq_false (by omega)
    exact ⟨assemble_of_not_wellFormed bad, assemble_of_not_wellFormed bad, assemble_of_not_wellFormed bad,
      assemble_of_not_wellFormed bad⟩
  case encodeNai => exact ⟨_, rfl, rfl, rfl, rfl, commandWord_of_fields false true 0#64⟩

section TextOfAWord

/-- The 16 hexadecimal digits of a word, most significant first. -/
def wordDigits (v : Word64) : List (BitVec 4) := (List.range 16).map fun k => v.extractLsb' (60 - 4 * k) 4

theorem hex64_eq_map_hexChar (v : Word64) : hex64 v = (wordDigits v).map hexChar := by
  rw [hex64, wordDigits, List.map_map]
  rfl

theorem length_wordDigits (v : Word64) : (wordDigits v).length = 16 := by
  rw [wordDigits, List.length_map, List.length_range]

/-- The digit at place `k`, counted from the right. -/
theorem wordDigits_reverse_getD (v : Word64) {k : Nat} (hk : k < 16) :
    (wordDigits v).reverse.getD k 0#4 = v.extractLsb' (4 * k) 4 := by
  have inside : k < (wordDigits v).reverse.length := by rwa [List.length_reverse, length_wordDigits]
  have place : 60 - 4 * (16 - 1 - k) = 4 * k := by omega
  rw [List.getD_eq_getElem _ _ inside, List.getElem_reverse]
  simp [wordDigits, place]

/-- A word is the number its digits write. -/
theorem hexOperand_wordDigits (v : Word64) : hexOperand (wordDigits v) = v :=
  eq_of_digits_eq fun _ hk => (extractLsb'_hexOperand _ hk).trans (wordDigits_reverse_getD v hk)

/-- A separator ends the word before it. -/
theorem splitAtBlanks_append_blank {m : List Char} (hm : ∀ c ∈ m, isBlank c = false) {b : Char}
    (hb : isBlank b = true) {w : List Char} (hw : ∀ c ∈ w, isBlank c = false) :
    splitAtBlanks (m ++ b :: w) = [m, w] := by
  induction m with
  | nil => simp [splitAtBlanks, splitAtBlanks_of_no_blank hw, hb]
  | cons c m ih =>
    obtain ⟨hc, hm⟩ := List.forall_mem_cons.1 hm
    simp [splitAtBlanks, ih hm, hc]

/-- The words of a line `DECODE 0x` and digits. -/
theorem lineWords_decode (digits : List (BitVec 4)) :
    lineWords (['D', 'E', 'C', 'O', 'D', 'E', ' ', '0', 'x'] ++ digits.map hexChar) =
      [['D', 'E', 'C', 'O', 'D', 'E'], '0' :: 'x' :: digits.map hexChar] := by
  have noComment : ';' ∉ ['D', 'E', 'C', 'O', 'D', 'E', ' ', '0', 'x'] ++ digits.map hexChar := by
    simp
  have mnemonic : ∀ c ∈ ['D', 'E', 'C', 'O', 'D', 'E'], isBlank c = false := by simp [isBlank]
  have operand : ∀ c ∈ '0' :: 'x' :: digits.map hexChar, isBlank c = false := by
    simp [show isBlank '0' = false by decide, show isBlank 'x' = false by decide]
  have words : splitAtBlanks (['D', 'E', 'C', 'O', 'D', 'E', ' ', '0', 'x'] ++ digits.map hexChar) =
      [['D', 'E', 'C', 'O', 'D', 'E'], '0' :: 'x' :: digits.map hexChar] :=
    splitAtBlanks_append_blank mnemonic (by decide) operand
  rw [lineWords, stripComment_of_not_mem noComment, words]
  rfl

/-- A line `DECODE 0x` and 1 to 16 digits presents DECODE of the number they write. -/
theorem assembleLine_decode {digits : List (BitVec 4)} (ok : hexOperandOk digits = true) :
    assembleLine (['D', 'E', 'C', 'O', 'D', 'E', ' ', '0', 'x'] ++ digits.map hexChar) =
      some (Pins.command (0b10#2 ++ hexOperand digits)) := by
  have parsed : parseWords [['D', 'E', 'C', 'O', 'D', 'E'], '0' :: 'x' :: digits.map hexChar] =
      some (.decodeHex digits) := by
    simp [parseWords, parseHex]
  have edge : AsmLine.assemble (.decodeHex digits) = some (AsmLine.pins (.decodeHex digits)) :=
    assemble_of_wellFormed ok
  rw [assembleLine, lineWords_decode, parsed, Option.bind_some, edge, AsmLine.pins, commandWordOf_eq_top]
  rfl

end TextOfAWord

/-- Settles O45: the text of a value is its 16 digits, which the line's operand reads back. -/
theorem responseTextIsReadBack : Obligations.ResponseTextIsReadBack := by
  intro v
  refine ⟨rfl, ?_, rfl, rfl, ?_⟩
  · have ok : hexOperandOk (wordDigits v) = true := 
      decide_eq_true (by rw [length_wordDigits]; decide)
    rw [hex64_eq_map_hexChar, assembleLine_decode ok, hexOperand_wordDigits]
  · rw [Pins.commandWord_command]
    exact decodeWord_top 0b10#2 v

end Sys2Proof.Machine
